-- ==== Sys2Proof/Word.lean ====
section
/-! DEFINITION. The value of one cell, one channel entry, one operand: `Int64` of 00_scope.md section 5. -/

namespace Sys2Proof

/-- A signed 64-bit value in two's complement (R4, R32). Every reading of it as a number is `BitVec.toInt`;
its representation is never observable, only its range (R4). Log entry 1. -/
abbrev Word := BitVec 64

/-- `INT_MIN = -2^63` (R4). -/
abbrev intMin : Int := -9223372036854775808

/-- `INT_MAX = 2^63 - 1` (R4). -/
abbrev intMax : Int := 9223372036854775807

end Sys2Proof
end

