-- ==== Sys2Proof/Syntax.lean ====
section
/-! DEFINITION. The instruction set as data: one constructor of `Instr` per row of opcode_table.json (R62). -/

namespace Sys2Proof

/-- The addressing mode of one parameter (R56). An instruction word can hold any digit 0 to 9, and a bad digit is
judged only when its parameter is resolved (R54), so the bad digits are part of the syntax. -/
inductive Mode where
  /-- digit 0: "parameter's own value is an address; resolve through Memory" -/
  | position
  /-- digit 1: "parameter's own value IS the operand (read-only; illegal as a write target)" -/
  | immediate
  /-- digit 2: "parameter's own value plus Relative Base is an address; resolve through Memory" -/
  | relative
  /-- digit `3 + k`: no mode at all; `UnknownAccessMode` when resolved -/
  | unknown (k : Fin 7)
deriving DecidableEq, Repr

/-- The two ways a parameter is resolved: to a value (source) or to an address (destination); R53, R59, R60. -/
inductive Path where
  | read
  | write
deriving DecidableEq, Repr

/-- The five instruction formats (R53). -/
inductive Format where
  | f0
  | f1r
  | f1w
  | f2
  | f3
deriving DecidableEq, Repr

/-- The ten instructions (R62), each with the mode of every parameter it has, in parameter order. The parameter
words are not part of it: an instruction is decoded from its instruction word alone (R63) and its parameter words
are read while it executes (R59, R60). Log entry 19. -/
inductive Instr where
  /-- `ADD`, opcode 1, R80 -/
  | add (m1 m2 m3 : Mode)
  /-- `MUL`, opcode 2, R81 -/
  | mul (m1 m2 m3 : Mode)
  /-- `IN`, opcode 3, R85 -/
  | inp (m1 : Mode)
  /-- `OUT`, opcode 4, R86 -/
  | out (m1 : Mode)
  /-- `JT`, opcode 5, R90 -/
  | jt (m1 m2 : Mode)
  /-- `JF`, opcode 6, R91 -/
  | jf (m1 m2 : Mode)
  /-- `LT`, opcode 7, R95 -/
  | lt (m1 m2 m3 : Mode)
  /-- `EQ`, opcode 8, R96 -/
  | eq (m1 m2 m3 : Mode)
  /-- `ARB`, opcode 9, R100 -/
  | arb (m1 : Mode)
  /-- `HLT`, opcode 99, R103 -/
  | hlt
deriving DecidableEq, Repr

/-- The paths of a format's parameters, in parameter order (R53). -/
def Format.paths : Format → List Path
  | .f0 => []
  | .f1r => [.read]
  | .f1w => [.write]
  | .f2 => [.read, .read]
  | .f3 => [.read, .read, .write]

/-- The format of an instruction (R53). -/
def Instr.format : Instr → Format
  | .add _ _ _ | .mul _ _ _ | .lt _ _ _ | .eq _ _ _ => .f3
  | .jt _ _ | .jf _ _ => .f2
  | .out _ | .arb _ => .f1r
  | .inp _ => .f1w
  | .hlt => .f0

/-- The modes of an instruction's parameters, in parameter order. -/
def Instr.modes : Instr → List Mode
  | .add m1 m2 m3 | .mul m1 m2 m3 | .lt m1 m2 m3 | .eq m1 m2 m3 => [m1, m2, m3]
  | .jt m1 m2 | .jf m1 m2 => [m1, m2]
  | .inp m1 | .out m1 | .arb m1 => [m1]
  | .hlt => []

/-- The length of an instruction in cells: one instruction word and its parameter words (R50, R63). -/
def Instr.cells (i : Instr) : Nat := 1 + i.modes.length

end Sys2Proof
end

