-- ==== Sys2Proof/Decode.lean ====
section
/-! DEFINITION. Decoding an instruction word (R51, R52, R57, R62, R64), the encoder written from the same tables,
and the assembler notation of R71. -/

namespace Sys2Proof

/-- `dig_k(w)`, the decimal digit of weight `10^k` (00_scope.md section 5). -/
def digit (k w : Nat) : Nat := w / 10 ^ k % 10

/-- The mode a decimal digit stands for (R56). -/
def Mode.ofDigit : Nat → Mode
  | 0 => .position
  | 1 => .immediate
  | 2 => .relative
  | d + 3 => .unknown (Fin.ofNat 7 d)

/-- The decimal digit that encodes a mode (R56). -/
def Mode.digit : Mode → Nat
  | .position => 0
  | .immediate => 1
  | .relative => 2
  | .unknown k => 3 + k.val

/-- `Mode(n)` of R57: the mode of parameter `n` (counted from 1) is digit `1 + n` of the instruction word. -/
def modeOf (w n : Nat) : Mode := Mode.ofDigit (Sys2Proof.digit (1 + n) w)

/-- Why a word is no instruction word (R64). Both raise `UnknownOpcode`. -/
inductive DecodeError where
  /-- the word is negative (R52) -/
  | negativeWord
  /-- the word's last two digits are no opcode of R62 -/
  | noSuchOpcode (op : Nat)
deriving DecidableEq, Repr

/-- The instruction a non-negative word encodes, by its last two decimal digits (R62). -/
def decodeNat (w : Nat) : Except DecodeError Instr :=
  match w % 100 with
  | 1 => .ok (.add (modeOf w 1) (modeOf w 2) (modeOf w 3))
  | 2 => .ok (.mul (modeOf w 1) (modeOf w 2) (modeOf w 3))
  | 3 => .ok (.inp (modeOf w 1))
  | 4 => .ok (.out (modeOf w 1))
  | 5 => .ok (.jt (modeOf w 1) (modeOf w 2))
  | 6 => .ok (.jf (modeOf w 1) (modeOf w 2))
  | 7 => .ok (.lt (modeOf w 1) (modeOf w 2) (modeOf w 3))
  | 8 => .ok (.eq (modeOf w 1) (modeOf w 2) (modeOf w 3))
  | 9 => .ok (.arb (modeOf w 1))
  | 99 => .ok .hlt
  | op => .error (.noSuchOpcode op)

/-- Decoding is total on any cell: a negative word is rejected (R52), any other is read as a decimal numeral (R51).
Digits that belong to no parameter of the instruction are not examined (R54). -/
def decode (w : Word) : Except DecodeError Instr :=
  if w.toInt < 0 then .error .negativeWord else decodeNat w.toNat

/-- The opcode of an instruction (R62). -/
def Instr.opcode : Instr → Nat
  | .add _ _ _ => 1
  | .mul _ _ _ => 2
  | .inp _ => 3
  | .out _ => 4
  | .jt _ _ => 5
  | .jf _ _ => 6
  | .lt _ _ _ => 7
  | .eq _ _ _ => 8
  | .arb _ => 9
  | .hlt => 99

/-- The numeral whose decimal digits, lowest first, are the digits of the modes. -/
def modesNumeral : List Mode → Nat
  | [] => 0
  | m :: ms => m.digit + 10 * modesNumeral ms

/-- `opcode + 100*m1 + 1000*m2 + 10000*m3` (R51, with the ignored high part 0). -/
def Instr.numeral (i : Instr) : Nat := i.opcode + 100 * modesNumeral i.modes

/-- The instruction word of an instruction (R51). -/
def encode (i : Instr) : Word := BitVec.ofNat 64 i.numeral

/-- The cells of an instruction with its parameter words (R50): the instruction word first. -/
def encodeCells (i : Instr) (params : List Word) : List Word := encode i :: params

/-- One operand in the assembler notation of R71. -/
inductive AsmOperand where
  /-- `[p]` -/
  | cell (p : Word)
  /-- `#p` -/
  | value (p : Word)
  /-- `[RB+p]` -/
  | based (p : Word)
deriving DecidableEq, Repr

/-- The mode an operand notation stands for (R71). -/
def AsmOperand.mode : AsmOperand → Mode
  | .cell _ => .position
  | .value _ => .immediate
  | .based _ => .relative

/-- The raw parameter word of an operand (R71). -/
def AsmOperand.word : AsmOperand → Word
  | .cell p | .value p | .based p => p

/-- A listing line `MNEM o1, o2, o3` (R70, R71): the mnemonics of R62, with their operands in parameter order. -/
inductive AsmLine where
  | add (a b d : AsmOperand)
  | mul (a b d : AsmOperand)
  | inp (d : AsmOperand)
  | out (a : AsmOperand)
  | jt (a b : AsmOperand)
  | jf (a b : AsmOperand)
  | lt (a b d : AsmOperand)
  | eq (a b d : AsmOperand)
  | arb (a : AsmOperand)
  | hlt
  /-- `DATA v` -/
  | data (v : Word)
deriving DecidableEq, Repr

/-- `#p` is not allowed for a destination (R71). -/
def AsmOperand.asDest : AsmOperand → Option Mode
  | .cell _ => some .position
  | .value _ => none
  | .based _ => some .relative

/-- The cells a listing line assembles to (R71), none where the notation does not allow it. -/
def assemble : AsmLine → Option (List Word)
  | .add a b d => d.asDest.map fun m3 => encodeCells (.add a.mode b.mode m3) [a.word, b.word, d.word]
  | .mul a b d => d.asDest.map fun m3 => encodeCells (.mul a.mode b.mode m3) [a.word, b.word, d.word]
  | .lt a b d => d.asDest.map fun m3 => encodeCells (.lt a.mode b.mode m3) [a.word, b.word, d.word]
  | .eq a b d => d.asDest.map fun m3 => encodeCells (.eq a.mode b.mode m3) [a.word, b.word, d.word]
  | .inp d => d.asDest.map fun m1 => encodeCells (.inp m1) [d.word]
  | .out a => some (encodeCells (.out a.mode) [a.word])
  | .arb a => some (encodeCells (.arb a.mode) [a.word])
  | .jt a b => some (encodeCells (.jt a.mode b.mode) [a.word, b.word])
  | .jf a b => some (encodeCells (.jf a.mode b.mode) [a.word, b.word])
  | .hlt => some (encodeCells .hlt [])
  | .data v => some [v]

/-- Cell `k` of a string of bits in which the first cell is bits 63..0, the next bits 127..64, and so on. -/
def cellOfBits (w k : Nat) : Word := BitVec.ofNat 64 (w / 2 ^ (64 * k))

/-- The instruction this decoder reads from an instruction whose bits are `w`, numbered as opcode_table.json numbers
them: the instruction word is the first cell, and it alone decides (R63). Bits above `nbits` are 0. Log entry 21. -/
def decodeTableWord (nbits w : Nat) : Option Instr :=
  match decode (cellOfBits (w % 2 ^ nbits) 0) with
  | .ok i => some i
  | .error _ => none

end Sys2Proof
end

