-- ==== Sys2Proof/Config.lean ====
section
/-! DEFINITION. What is fixed for the machine (R4), and the one parameter the spec leaves open. -/

namespace Sys2Proof

/-- The highest address the machine can form, `ADDR_MAX = 2^63 - 1` (R4, R32). -/
abbrev Config.addrMax : Nat := 9223372036854775807

/-- The value an address that no write has reached reads as (R30). -/
abbrev Config.defaultCell : Word := 0

/-- The entry point after reset (R4, R26, R40). -/
abbrev Config.entryPoint : Word := 0

/-- `LOADER_LENIENT` (R78, decision D14): whether the text loader accepts a leading `+` and white space around a
token. The spec leaves it to the loader, so it has no value here. Log entry 17. -/
opaque Config.loaderLenient : Bool

end Sys2Proof
end

