-- ==== Sys2Proof/Machine/State.lean ====
section
/-! DEFINITION. The whole state of one machine instance (R10), its value after reset (R26), and the reasons a step
can stop. -/

namespace Sys2Proof.Machine

/-- `STATE` (R18): four names without numeric codes. -/
inductive ExecState where
  /-- the machine may execute steps -/
  | runnable
  /-- the last run stopped at an `IN` that found the input channel empty; resumable -/
  | awaitingInput
  /-- the machine executed `HLT`; terminal -/
  | terminated
  /-- the machine faulted; terminal -/
  | error
deriving DecidableEq, Repr

/-- The faults of R111. Each is taken by the step (R112): the next state is in `Error` with the kind in `FAULT`. -/
inductive FaultKind where
  /-- "opcode not in the supported table", or a negative instruction word -/
  | unknownOpcode
  /-- "addressing-mode digit not in {0,1,2}" on a parameter being resolved -/
  | unknownAccessMode
  /-- "immediate mode used as a write target" -/
  | badParameterMode
  /-- a negative effective address, or `IP < 0` at a fetch -/
  | negativeAddress
  /-- an exact result outside `Int64` -/
  | arithmeticOverflow
deriving DecidableEq, Repr

/-- The cells that hold a non-zero value, as (address, cell) pairs with strictly rising addresses. The unit is the
cell, not the byte: no access narrower than a cell exists and no byte order is defined (R32, R37). Log entry 2. -/
abbrev Memory := List (Nat × Word)

/-- One machine instance: every element of R10, and nothing else. -/
structure State where
  /-- `Mem` (R20) -/
  mem : Memory
  /-- `MemDom` (R21): the addresses that exist, strictly rising. Log entry 3. -/
  memDom : List Nat
  /-- `IP` (R12) -/
  ip : Word
  /-- `RB` (R16) -/
  rb : Word
  /-- `IN` (R22), oldest entry first -/
  input : List Word
  /-- `OUT` (R23), oldest entry first -/
  output : List Word
  /-- `STATE` (R18) -/
  status : ExecState
  /-- `FAULT` (R19): `none` is the spec's `None` -/
  fault : Option FaultKind
  /-- `IW` (R24): the instruction word of the instruction being executed -/
  iw : Word
deriving DecidableEq, Repr

/-- Faults that stop the model's step. There is none: every fault of the spec is an entry into `Error` that R112
describes, so a step that meets one answers a next state. Log entry 12. Safe: nothing stops. -/
inductive Fault where
deriving DecidableEq, Repr

/-- Why a step is not taken. -/
inductive Refusal where
  /-- Raised by `exec` for an instruction that has no meaning yet. No arm answers it now. Safe: the machine stops. -/
  | notModelled (mnemonic : String)
  /-- Raised by `step` and `run` on a `Terminated` machine: `ProgramTerminated` (R121), the rejection the spec
  gives. Safe: the spec executes nothing there either. -/
  | programTerminated
  /-- Raised by `step` and `run` on a machine in `Error`: `MachineInError` (R137), the rejection the spec gives.
  Safe: the spec executes nothing there either. -/
  | machineInError
deriving DecidableEq, Repr

/-- The machine after `Reset` of the empty image (R26, R150, R153). `IW` has no value in the spec: 0 is log entry 4. -/
def State.reset : State where
  mem := []
  memDom := []
  ip := Config.entryPoint
  rb := 0
  input := []
  output := []
  status := .runnable
  fault := none
  iw := 0

end Sys2Proof.Machine
end

