-- ==== Sys2Proof/Machine/Ops.lean ====
section
/-! DEFINITION. The named operations over the state: memory cells, the set of existing addresses, the channels, taking
a fault, moving `IP`, fetching an instruction word, and loading an image. -/

namespace Sys2Proof.Machine

abbrev Outcome := Host.Outcome State Fault Refusal

/-! ### Memory (20_memory.md) -/

/-- `Mem[a]` (R30): the value listed for `a`, and 0 where nothing is listed. -/
def readCell : Memory → Nat → Word
  | [], _ => Config.defaultCell
  | (b, v) :: rest, a => if a = b then v else readCell rest a

/-- `m` without any entry for `a`. -/
def eraseCell (a : Nat) (m : Memory) : Memory := m.filter fun c => c.1 ≠ a

/-- `m` with the entry `(a, v)` placed before the first higher address. -/
def insertCell (a : Nat) (v : Word) : Memory → Memory
  | [] => [(a, v)]
  | (b, u) :: rest => if a < b then (a, v) :: (b, u) :: rest else (b, u) :: insertCell a v rest

/-- Memory with `v` at `a` (R34). Writing the value an unlisted address reads as removes the entry. -/
def writeCell (m : Memory) (a : Nat) (v : Word) : Memory :=
  if v = Config.defaultCell then eraseCell a m else insertCell a v (eraseCell a m)

/-- The canonical form: addresses strictly rising, all in `Addr`, and no entry equal to what an unlisted address
reads as. -/
abbrev Memory.wf (m : Memory) : Prop :=
  m.Pairwise (fun x y => x.1 < y.1) ∧ ∀ c ∈ m, c.2 ≠ Config.defaultCell ∧ c.1 ≤ Config.addrMax

/-- The set `dom ∪ {a}` (R33, R34), kept strictly rising. -/
def insertAddr (a : Nat) : List Nat → List Nat
  | [] => [a]
  | b :: rest => if a < b then a :: b :: rest else if a = b then b :: rest else b :: insertAddr a rest

/-- The canonical form of `MemDom`. -/
abbrev domWf (dom : List Nat) : Prop := dom.Pairwise (· < ·) ∧ ∀ a ∈ dom, a ≤ Config.addrMax

/-- Address `a` exists from now on (R21). -/
def State.touch (a : Nat) (s : State) : State := { s with memDom := insertAddr a s.memDom }

/-- `MemRead(a)` (R33): the value, and the state in which `a` exists. -/
def memRead (a : Nat) (s : State) : Word × State := (readCell s.mem a, s.touch a)

/-- `MemWrite(a, v)` (R34). -/
def memWrite (a : Nat) (v : Word) (s : State) : State :=
  { s with mem := writeCell s.mem a v, memDom := insertAddr a s.memDom }

/-! ### Arithmetic (R82) -/

/-- `fits(v)` (00_scope.md section 5). -/
abbrev Fits (v : Int) : Prop := intMin ≤ v ∧ v ≤ intMax

/-- The value of an exact result that fits. -/
def narrow (v : Int) : Word := BitVec.ofInt 64 v

/-! ### Faults (60_exceptions.md) -/

/-- `raise K` (R112): `STATE <- Error`, `FAULT <- K`, and nothing else. -/
def raise (k : FaultKind) (s : State) : State := { s with status := .error, fault := some k }

/-- The result of a part of a step: a value and the state, or the state a fault has left. -/
inductive Res (α : Type) where
  | ok (a : α) (s : State)
  | raised (s : State)
deriving Repr

/-- The next part of the step; a raised fault abandons the rest (R112). -/
def Res.bind {α β : Type} (r : Res α) (k : α → State → Res β) : Res β :=
  match r with
  | .ok a s => k a s
  | .raised s => .raised s

/-- The end of the step; a raised fault has ended it already, in a next state. -/
def Res.finish {α : Type} (r : Res α) (k : α → State → Outcome) : Outcome :=
  match r with
  | .ok a s => k a s
  | .raised s => .next s

/-- A check that gives a value or raises. -/
def Res.check {α : Type} (e : Except FaultKind α) (s : State) : Res α :=
  match e with
  | .ok a => .ok a s
  | .error k => .raised (raise k s)

/-- `CheckAddr(e)` (R36). -/
def checkAddr (e : Int) : Except FaultKind Nat :=
  if e < 0 then .error .negativeAddress else .ok e.toNat

/-! ### The instruction pointer and the fetch -/

/-- `AdvanceIP()` (R14): the increment never wraps. -/
def advanceIP (s : State) : Res Unit :=
  if s.ip.toInt = intMax then .raised (raise .arithmeticOverflow s) else .ok () { s with ip := s.ip + 1 }

/-- The fetch of R55 up to the word itself: guard on `IP`, read the cell, latch it, advance. What the word means is
the decoder's. -/
def fetchWord (s : State) : Res Word :=
  (Res.check (checkAddr s.ip.toInt) s).bind fun a s1 =>
  let r := memRead a s1
  (advanceIP { r.2 with iw := r.1 }).bind fun _ s2 => .ok s2.iw s2

/-- The cell at `IP`: the instruction word the next step fetches. -/
def State.nextWord (s : State) : Word := readCell s.mem s.ip.toInt.toNat

/-- `IP` is in `Addr` and can be advanced past `n` words (R14). -/
abbrev State.hasRoom (s : State) (n : Nat) : Prop := 0 ≤ s.ip.toInt ∧ s.ip.toInt + n ≤ intMax

/-- The state after a fetch that does not fault: the one in which an instruction begins to execute. -/
def State.fetched (s : State) : State :=
  { s with ip := s.ip + 1, iw := s.nextWord, memDom := insertAddr s.ip.toInt.toNat s.memDom }

/-- The instruction word that was fetched is no instruction: `UnknownOpcode`, raised after the fetch (R52, R104). -/
def unknownOpcode (s : State) : Outcome := .next (raise .unknownOpcode s)

/-! ### The channels (R44 to R48) -/

/-- `InEmpty()` (R44). -/
def inEmpty (s : State) : Bool := s.input.isEmpty

/-- `InPop()` (R45), none where the channel is empty (it is then never called). -/
def inPop (s : State) : Option (Word × State) :=
  match s.input with
  | [] => none
  | v :: rest => some (v, { s with input := rest })

/-- `InPush(v)` (R46). -/
def inPush (v : Word) (s : State) : State := { s with input := s.input ++ [v] }

/-- `OutPush(v)` (R47). -/
def outPush (v : Word) (s : State) : State := { s with output := s.output ++ [v] }

/-- `OutPop()` (R48): the oldest entry, or `none` and no change. -/
def outPop (s : State) : Option Word × State :=
  match s.output with
  | [] => (none, s)
  | v :: rest => (some v, { s with output := rest })

/-! ### Suspension, halt and the entry into a run -/

/-- The suspension of `IN` (R85, R119): `IP` one cell back, on the instruction word, and `AwaitingInput`. -/
def suspend (s : State) : State := { s with ip := s.ip - 1, status := .awaitingInput }

/-- `STATE <- Terminated` (R103, R120). -/
def halt (s : State) : State := { s with status := .terminated }

/-- What `Run` does on entry (R124): a terminal machine is rejected (R121, R137), any other is `Runnable`. -/
def enterRun (s : State) : Except Refusal State :=
  match s.status with
  | .terminated => .error .programTerminated
  | .error => .error .machineInError
  | .runnable | .awaitingInput => .ok { s with status := .runnable }

/-! ### Reset -/

/-- Write the values of a list to consecutive addresses from `k` on. -/
def loadFrom (k : Nat) : List Word → State → State
  | [], s => s
  | w :: ws, s => loadFrom (k + 1) ws (memWrite k w s)

/-- `Reset(image)` (R150): nothing of an earlier state survives (R151). -/
def resetWith (image : List Word) : State := loadFrom 0 image State.reset

/-- A state in which the next step fetches at `IP`: a terminal machine is made `Runnable`, and an `IP` at which four
cells cannot be fetched goes to the entry point. Used by `State.withFetchWord` alone. Log entry 16. -/
def readyToFetch (s : State) : State :=
  let s1 : State := match s.status with
    | .runnable | .awaitingInput => s
    | .terminated | .error => { s with status := .runnable, fault := none }
  if 0 ≤ s1.ip.toInt ∧ s1.ip.toInt + 4 ≤ intMax then s1 else { s1 with ip := Config.entryPoint }

/-- The cells of a list written at `IP` and after it, as a load would write them. -/
def placeAtIP (cells : List Word) (s : State) : State := loadFrom s.ip.toInt.toNat cells s

end Sys2Proof.Machine
end

