-- ==== Sys2Proof/Machine/Operands.lean ====
section
/-! DEFINITION. Every operand form (R56 to R61), and the views of an instruction's operands in the state in which it
begins to execute, that is after the fetch, with `IP` at its first parameter word. -/

namespace Sys2Proof.Machine

/-- `EffAddr(m, p, path)` (R58): the mode is judged first, then the sum, then the sign of the address (D25). On the
read path immediate mode never comes here (R59). -/
def effective (m : Mode) (p rb : Word) : Except FaultKind Nat :=
  match m with
  | .position => checkAddr p.toInt
  | .relative => if Fits (p.toInt + rb.toInt) then checkAddr (p.toInt + rb.toInt) else .error .arithmeticOverflow
  | .immediate => .error .badParameterMode
  | .unknown _ => .error .unknownAccessMode

/-- The raw parameter word at `IP`, read and so materialised before its mode is judged (R59, R60). `IP >= 1` in every
state in which a parameter is resolved, so the guard never fires in a step (R36). Log entry 15. -/
def readParamWord (s : State) : Res Word :=
  (Res.check (checkAddr s.ip.toInt) s).bind fun a s1 =>
  let r := memRead a s1
  .ok r.1 r.2

/-- The operand a raw parameter word stands for on the read path (R56, R59). -/
def resolveSource (m : Mode) (p : Word) (s : State) : Res Word :=
  match m with
  | .immediate => .ok p s
  | .position | .relative | .unknown _ =>
    (Res.check (effective m p s.rb) s).bind fun e s1 =>
    let r := memRead e s1
    .ok r.1 r.2

/-- `ReadParam(n)` (R59), with `IP` at parameter word `n`: read the word, resolve it, then advance. -/
def readParam (m : Mode) (s : State) : Res Word :=
  (readParamWord s).bind fun p s1 =>
  (resolveSource m p s1).bind fun v s2 =>
  (advanceIP s2).bind fun _ s3 => .ok v s3

/-- `WriteParam(n)` (R60): the address to be written; the cell at it is not read. -/
def writeParam (m : Mode) (s : State) : Res Nat :=
  (readParamWord s).bind fun p s1 =>
  (Res.check (effective m p s1.rb) s1).bind fun e s2 =>
  (advanceIP s2).bind fun _ s3 => .ok e s3

/-- The two sources of format F2 (R53), in order (R61). -/
def twoSources (m1 m2 : Mode) (s : State) (k : Word → Word → State → Outcome) : Outcome :=
  (readParam m1 s).finish fun a s1 => (readParam m2 s1).finish fun b s2 => k a b s2

/-- The parameters of format F3 (R53): two sources and a destination, all resolved before the result (R83). -/
def threeParams (m1 m2 m3 : Mode) (s : State) (k : Word → Word → Nat → State → Outcome) : Outcome :=
  twoSources m1 m2 s fun a b s2 => (writeParam m3 s2).finish fun d s3 => k a b d s3

/-- Store an exact result, or raise the overflow and store nothing (R82, D2). -/
def storeExact (d : Nat) (v : Int) (s : State) : Outcome :=
  if Fits v then .next (memWrite d (narrow v) s) else .next (raise .arithmeticOverflow s)

/-! ### Views of the operands, for statements -/

/-- The address of parameter word `k`, counted from 0, of the instruction that begins to execute in `s`. -/
def State.cursor (s : State) (k : Nat) : Nat := (s.ip.toInt + k).toNat

/-- The raw parameter word `k`, counted from 0. -/
def State.rawParam (s : State) (k : Nat) : Word := readCell s.mem (s.cursor k)

/-- The value of parameter `k` on the read path, or the fault its resolution raises. -/
def State.source (s : State) (m : Mode) (k : Nat) : Except FaultKind Word :=
  match m with
  | .immediate => .ok (s.rawParam k)
  | .position | .relative | .unknown _ => (effective m (s.rawParam k) s.rb).map (readCell s.mem)

/-- The address of parameter `k` on the write path, or the fault its resolution raises. -/
def State.dest (s : State) (m : Mode) (k : Nat) : Except FaultKind Nat := effective m (s.rawParam k) s.rb

/-- The addresses read when parameter `k` is resolved on the read path: its word, then its source cell. -/
def State.sourceReads (s : State) (m : Mode) (k : Nat) : List Nat :=
  match m with
  | .immediate => [s.cursor k]
  | .position | .relative | .unknown _ =>
    match effective m (s.rawParam k) s.rb with
    | .ok e => [s.cursor k, e]
    | .error _ => [s.cursor k]

/-- `MemDom` after the addresses of a list have been accessed in order. -/
def touchAll (addrs : List Nat) (dom : List Nat) : List Nat := addrs.foldl (fun d a => insertAddr a d) dom

end Sys2Proof.Machine
end

