-- ==== Sys2Proof/Machine/Arithmetic.lean ====
section
/-! DEFINITION. ADD and MUL (40_arithmetic.md). -/

namespace Sys2Proof.Machine

/-- `ADD s1, s2, d` (R80). -/
def execAdd (m1 m2 m3 : Mode) (s : State) : Outcome :=
  threeParams m1 m2 m3 s fun a b d s' => storeExact d (a.toInt + b.toInt) s'

/-- `MUL s1, s2, d` (R81). -/
def execMul (m1 m2 m3 : Mode) (s : State) : Outcome :=
  threeParams m1 m2 m3 s fun a b d s' => storeExact d (a.toInt * b.toInt) s'

end Sys2Proof.Machine
end

