-- ==== Sys2Proof/Machine/Channel.lean ====
section
/-! DEFINITION. IN and OUT (41_io.md). -/

namespace Sys2Proof.Machine

/-- `IN d` (R85): the emptiness test first, then the parameter, then the pop, then the store. -/
def execIn (m1 : Mode) (s : State) : Outcome :=
  if inEmpty s then .next (suspend s)
  else
    (writeParam m1 s).finish fun d s1 =>
    match inPop s1 with
    | some (v, s2) => .next (memWrite d v s2)
    | none => .next (suspend s)

/-- `OUT s` (R86). -/
def execOut (m1 : Mode) (s : State) : Outcome :=
  (readParam m1 s).finish fun a s1 => .next (outPush a s1)

end Sys2Proof.Machine
end

