-- ==== Sys2Proof/Machine/Flags.lean ====
section
/-! DEFINITION. The machine has no flags, condition codes or predicates (R17). A comparison's result is a value, 0 or
1, stored in memory, and a conditional jump tests an operand against zero; both are here. -/

namespace Sys2Proof.Machine

/-- The value a comparison stores (R95, R96). -/
def truthValue (b : Bool) : Word := if b then 1 else 0

/-- `a < b` of the signed values (R95): compared, not subtracted, so it never overflows. -/
def lessThan (a b : Word) : Bool := decide (a.toInt < b.toInt)

/-- `a = b` of the integer values (R96). -/
def equalTo (a b : Word) : Bool := decide (a.toInt = b.toInt)

/-- The test of a conditional jump (R90, R91): every non-zero value is true. -/
def isNonzero (a : Word) : Bool := decide (a.toInt ≠ 0)

end Sys2Proof.Machine
end

