-- ==== Sys2Proof/Machine/Compare.lean ====
section
/-! DEFINITION. LT and EQ (43_compare.md). -/

namespace Sys2Proof.Machine

/-- `LT s1, s2, d` (R95). -/
def execLt (m1 m2 m3 : Mode) (s : State) : Outcome :=
  threeParams m1 m2 m3 s fun a b d s' => .next (memWrite d (truthValue (lessThan a b)) s')

/-- `EQ s1, s2, d` (R96). -/
def execEq (m1 m2 m3 : Mode) (s : State) : Outcome :=
  threeParams m1 m2 m3 s fun a b d s' => .next (memWrite d (truthValue (equalTo a b)) s')

end Sys2Proof.Machine
end

