-- ==== Sys2Proof/Machine/Halt.lean ====
section
/-! DEFINITION. HLT (45_halt.md). -/

namespace Sys2Proof.Machine

/-- `HLT` (R103): `IP` is left one past the instruction by the fetch. -/
def execHlt (s : State) : Outcome := .next (halt s)

end Sys2Proof.Machine
end

