-- ==== Sys2Proof/Machine/Jumps.lean ====
section
/-! DEFINITION. JT and JF (42_jumps.md). Both operands are always resolved (R93); the target is not judged (R92). -/

namespace Sys2Proof.Machine

/-- `JT s1, s2` (R90). -/
def execJt (m1 m2 : Mode) (s : State) : Outcome :=
  twoSources m1 m2 s fun a b s' => .next (if isNonzero a then { s' with ip := b } else s')

/-- `JF s1, s2` (R91). -/
def execJf (m1 m2 : Mode) (s : State) : Outcome :=
  twoSources m1 m2 s fun a b s' => .next (if isNonzero a then s' else { s' with ip := b })

end Sys2Proof.Machine
end

