-- ==== Sys2Proof/Machine/RelativeBase.lean ====
section
/-! DEFINITION. ARB (44_relative_base.md). -/

namespace Sys2Proof.Machine

/-- `RB <- RB + a`, or the overflow with `RB` unchanged (R100, D2). -/
def addToBase (a : Word) (s : State) : Outcome :=
  if Fits (s.rb.toInt + a.toInt) then .next { s with rb := narrow (s.rb.toInt + a.toInt) }
  else .next (raise .arithmeticOverflow s)

/-- `ARB s` (R100): the operand is read through the old `RB`. -/
def execArb (m1 : Mode) (s : State) : Outcome :=
  (readParam m1 s).finish fun a s1 => addToBase a s1

end Sys2Proof.Machine
end

