-- ==== Sys2Proof/Machine/Step.lean ====
section
/-! DEFINITION. One step (R66) of the loop of `Run` (R124). -/

namespace Sys2Proof.Machine

/-- `Step()` (R66), called with `STATE = Runnable`: fetch, decode, execute. -/
def runningStep (s : State) : Host.Outcome State Fault Refusal :=
  (fetchWord s).finish fun w s1 =>
  match decode w with
  | .ok i => exec i s1
  | .error _ => unknownOpcode s1

/-- One step of the machine. In `Runnable` it is `Step()`. In `AwaitingInput` the machine moves only because the host
invokes `Run`, which sets `Runnable` and steps (R119, R124), so that is what the step does. In a terminal state `Run`
is rejected and no step is taken (R121, R137). Log entry 13. -/
def step (s : State) : Host.Outcome State Fault Refusal :=
  match enterRun s with
  | .ok s1 => runningStep s1
  | .error r => .refused r

/-- `s` with an instruction stored where `step` fetches its next one: the longest instruction's four cells (R4), the
bits above `nbits` zero. Log entry 16. -/
def State.withFetchWord (s : State) (nbits w : Nat) : State :=
  let bits := w % 2 ^ nbits
  placeAtIP [cellOfBits bits 0, cellOfBits bits 1, cellOfBits bits 2, cellOfBits bits 3] (readyToFetch s)

end Sys2Proof.Machine
end

