-- ==== Sys2Proof/Machine/Interface.lean ====
section
/-! DEFINITION. The host interface (60_exceptions.md sections 6 and 8): what the host does between runs. -/

namespace Sys2Proof.Machine

/-- The report of `Run` (R125). -/
inductive Report where
  | halted
  | needInput
  | faulted (k : FaultKind)
  | rejected (r : Refusal)
deriving DecidableEq, Repr

/-- The report the state of a machine gives when its run has ended (R124); none where no run can have ended. -/
def reportOf (s : State) : Option Report :=
  match s.status with
  | .terminated => some .halted
  | .awaitingInput => some .needInput
  | .error => s.fault.map .faulted
  | .runnable => none

/-- The loop of `Run` (R124), with `fuel` steps at most: the state in which it ends, or none where it needs more
steps (R136: it need not end). -/
def runLoop : Nat → State → Option State
  | 0, s => if s.status = .runnable then none else some s
  | fuel + 1, s =>
    if s.status = .runnable then
      match runningStep s with
      | .next t => runLoop fuel t
      | .fault _ => none
      | .refused _ => none
    else some s

/-- `Run()` (R124) with `fuel` steps at most: the report and the state it leaves. -/
def run (fuel : Nat) (s : State) : Option (Report × State) :=
  match enterRun s with
  | .error r => some (.rejected r, s)
  | .ok s1 => (runLoop fuel s1).bind fun t => (reportOf t).map fun rep => (rep, t)

/-- `push_input(value)` (R126). -/
def pushInput (v : Word) (s : State) : State := inPush v s

/-- `zext_8(b)` (00_scope.md section 5): the value 0 to 255 of a byte. Log entry 18. -/
def zext8 (b : BitVec 8) : Word := b.setWidth 64

/-- `push_ascii(bytes)` (R127): each byte's value, in order, and nothing else. -/
def pushAscii : List (BitVec 8) → State → State
  | [], s => s
  | b :: bs, s => pushAscii bs (pushInput (zext8 b) s)

/-- `pop_output()` (R128). -/
def popOutput (s : State) : Option Word × State := outPop s

/-- `Exists(a)` (R134). -/
def existsAddr (a : Nat) (s : State) : Bool := s.memDom.contains a

/-- `Size()` (R134). -/
def domSize (s : State) : Nat := s.memDom.length

/-- The host's scheduler moves one value from the output of one instance to the input of another, between runs
(R133); nothing moves where there is none. -/
def moveValue (source target : State) : State × State :=
  match popOutput source with
  | (some v, source') => (source', pushInput v target)
  | (none, source') => (source', target)

end Sys2Proof.Machine
end

