-- ==== Sys2Proof/Machine/Loader.lean ====
section
/-! DEFINITION. The program text (R77, R78) and its load (R122). The loader is outside the block (00_scope.md
section 3); it is here because its text is the only program syntax the source has. -/

namespace Sys2Proof.Machine

/-- The decimal value of a character that is a digit. -/
def digitValue (c : Char) : Option Nat :=
  if '0'.toNat ≤ c.toNat ∧ c.toNat ≤ '9'.toNat then some (c.toNat - '0'.toNat) else none

/-- The value of a string of decimal digits, continuing from the value read so far. -/
def digitsFrom (n : Nat) : List Char → Option Nat
  | [] => some n
  | c :: cs => (digitValue c).bind fun d => digitsFrom (10 * n + d) cs

/-- The value of one or more decimal digits. -/
def digitsValue : List Char → Option Nat
  | [] => none
  | c :: cs => digitsFrom 0 (c :: cs)

/-- A value that does not fit makes its token malformed (R78). -/
def tokenValue (v : Int) : Option Word := if Fits v then some (narrow v) else none

/-- White space around a token: space, tab, line feed, carriage return. Log entry 17. -/
def isSpace (c : Char) : Bool := c == ' ' || c == '\t' || c == '\n' || c == '\r'

/-- A token without the white space before and after it. -/
def trimToken (cs : List Char) : List Char := ((cs.dropWhile isSpace).reverse.dropWhile isSpace).reverse

/-- One token: an optional `-` and one or more digits; what else is accepted is the loader's choice (R78). -/
def parseToken (lenient : Bool) (token : List Char) : Option Word :=
  match if lenient then trimToken token else token with
  | '-' :: ds => (digitsValue ds).bind fun n => tokenValue (-(n : Int))
  | '+' :: ds => if lenient then (digitsValue ds).bind fun n => tokenValue n else none
  | ds => (digitsValue ds).bind fun n => tokenValue n

/-- The tokens between commas; a text without a comma is one token. -/
def splitCommas : List Char → List (List Char)
  | [] => [[]]
  | c :: cs =>
    if c = ',' then [] :: splitCommas cs
    else match splitCommas cs with
      | [] => [[c]]
      | t :: ts => (c :: t) :: ts

/-- All tokens, or none if one is malformed. -/
def parseTokens (lenient : Bool) : List (List Char) → Option (List Word)
  | [] => some []
  | t :: ts => (parseToken lenient t).bind fun v => (parseTokens lenient ts).map (v :: ·)

/-- The image a program text stands for (R77): token `k` is the initial value of cell `k`. -/
def parseText (text : List Char) : Option (List Word) := parseTokens Config.loaderLenient (splitCommas text)

/-- Loading a text: a malformed token fails the load before any machine exists (R77, R122). -/
def loadText (text : List Char) : Option State := (parseText text).map resetWith

end Sys2Proof.Machine
end

