-- ==== Sys2Proof/Safety.lean ====
section
/-! DEFINITION. What a good state is, and what a safe run is. -/

namespace Sys2Proof.Machine

/-- The invariant of every reachable state: memory and `MemDom` are in canonical form inside `Addr`; a cell that holds
a value other than 0 exists (R21, R34); `FAULT` is `None` exactly when `STATE ≠ Error` (R19). -/
structure State.Inv (s : State) : Prop where
  memory : Memory.wf s.mem
  domain : domWf s.memDom
  written_exists : ∀ c ∈ s.mem, c.1 ∈ s.memDom
  fault_latch : s.fault = none ↔ s.status ≠ .error

/-- No step so far has faulted. -/
abbrev State.Safe (s : State) : Prop := s.status ≠ .error ∧ s.fault = none

/-- The states in which `Run` executes at least one step. -/
abbrev State.Live (s : State) : Prop := s.status = .runnable ∨ s.status = .awaitingInput

/-- `s` and `t` agree on everything but `MemDom` and the latch `IW`, the two elements that no instruction observes
(R21, R24). -/
abbrev State.SameButShadow (s t : State) : Prop :=
  s.mem = t.mem ∧ s.ip = t.ip ∧ s.rb = t.rb ∧ s.input = t.input ∧ s.output = t.output ∧ s.status = t.status ∧
    s.fault = t.fault

/-- `t` is the first state that is not `Runnable` of those that one or more steps reach from `s`, and `k` steps reach it:
where a run of `s` ends (R124, R166). -/
abbrev State.StopsAfter (s : State) (k : Nat) (t : State) : Prop :=
  1 ≤ k ∧ Host.Core.run Sys2Proof.core k s = .next t ∧ t.status ≠ .runnable ∧
    ∀ j, 1 ≤ j → j < k → ∀ u, Host.Core.run Sys2Proof.core j s = .next u → u.status = .runnable

end Sys2Proof.Machine
end

