-- ==== Sys2Proof/WellFormed.lean ====
section
/-! DEFINITION. Well-formed instructions: the encodings that are not in the list of R64. -/

namespace Sys2Proof

/-- The modes that are legal on a path (R56; the `legal_values` of opcode_table.json): position, immediate and
relative for a source, position and relative for a destination. -/
def Mode.legalOn : Path → Mode → Bool
  | .read, .position | .read, .immediate | .read, .relative => true
  | .write, .position | .write, .relative => true
  | .write, .immediate => false
  | .read, .unknown _ | .write, .unknown _ => false

/-- Every parameter of the instruction has a mode that is legal on the path that resolves it. An ill-formed
instruction still decodes: it faults when (and only if) the bad parameter is resolved (R54, R64). Log entry 24. -/
def Instr.wellFormed (i : Instr) : Bool :=
  (i.format.paths.zip i.modes).all fun pm => pm.2.legalOn pm.1

end Sys2Proof
end

