-- ==== Sys2Proof/Certificates/Slice0/Obligations.lean ====
section
/-! DEFINITION. The statements for the provers. A statement about `exec` is about the state in which an instruction
begins to execute, that is after the fetch: `IP` at its first parameter word. `s.source m k` and `s.dest m k` are
parameter `k` (counted from 0) resolved in that state; `s.hasRoom n` says that `n` parameter words can be stepped past. Where
a statement lets a machine in `AwaitingInput` take a step, that step is the first of the host's next `Run`: the model's
choice (log entry 13), not a step of R66, which is called in `Runnable` alone. So it is where a statement says that `step`
is refused in a terminal state: the spec rejects the call of `Run` (R121, R137). -/

open Sys2Proof Sys2Proof.Machine

/-! ### Encoding -/

/-- Words of opcode_table.json written out digit by digit (R51, R54, R62, R71) and what they are. That unexamined
digits are ignored and that a negative word is no instruction are the spec's decisions D16 and D6. -/
def Obligations.SpecWordsDecodeAsWritten : Prop :=
  decode 1101 = .ok (.add .immediate .immediate .position) ∧
  decode 21101 = .ok (.add .immediate .immediate .relative) ∧
  decode 1102 = .ok (.mul .immediate .immediate .position) ∧
  decode 203 = .ok (.inp .relative) ∧
  decode 204 = .ok (.out .relative) ∧
  decode 30004 = .ok (.out .position) ∧
  decode 1105 = .ok (.jt .immediate .immediate) ∧
  decode 1006 = .ok (.jf .position .immediate) ∧
  decode 1007 = .ok (.lt .position .immediate .position) ∧
  decode 108 = .ok (.eq .immediate .position .position) ∧
  decode 109 = .ok (.arb .immediate) ∧
  decode 99 = .ok .hlt ∧ decode 199 = .ok .hlt ∧ decode 1099 = .ok .hlt ∧ decode 100099 = .ok .hlt ∧
  decode 98 = .error (.noSuchOpcode 98) ∧ decode 0 = .error (.noSuchOpcode 0) ∧
  decode (-99) = .error .negativeWord

/-- Decoding the encoding of an instruction gives it back, for every instruction and every mode digit (R51, R62). -/
def Obligations.DecodeOfEncodeIsTheInstruction : Prop :=
  ∀ i : Instr, decode (encode i) = .ok i

/-- R57: the mode of parameter `n` is the decimal digit of weight `10^(1+n)`, a digit 0 to 9, and the word is not
negative whenever a mode is read. Parameters are counted from 0 here, so the weight is `10^(2+n)`. -/
def Obligations.ModesAreTheHundredsThousandsTenThousands : Prop :=
  ∀ (w : Word) (i : Instr) (n : Nat) (m : Mode), decode w = .ok i → i.modes[n]? = some m →
    0 ≤ w.toInt ∧ m.digit = w.toInt.toNat / 10 ^ (2 + n) % 10 ∧ m.digit ≤ 9

/-- The opcode is the last two digits, ten values are instructions and the other ninety are not (R62, R64), and the
length depends on the opcode alone (R50, R63). -/
def Obligations.LastTwoDigitsSelectTheInstruction : Prop :=
  ∀ w : Word, 0 ≤ w.toInt →
    ((∃ i, decode w = .ok i) ↔ w.toInt.toNat % 100 ∈ [1, 2, 3, 4, 5, 6, 7, 8, 9, 99]) ∧
    ∀ i, decode w = .ok i → i.opcode = w.toInt.toNat % 100 ∧
      (i.cells = if i.opcode ∈ [1, 2, 7, 8] then 4 else if i.opcode ∈ [5, 6] then 3
        else if i.opcode ∈ [3, 4, 9] then 2 else 1)

/-- Digits that no parameter of the instruction uses are not examined (R54, the spec's decision D16). -/
def Obligations.UnexaminedDigitsAreIgnored : Prop :=
  ∀ (w w' : Word) (i : Instr), 0 ≤ w'.toInt → decode w = .ok i → w'.toInt.toNat % 100 = w.toInt.toNat % 100 →
    (∀ n < i.modes.length, digit (2 + n) w'.toInt.toNat = digit (2 + n) w.toInt.toNat) → decode w' = .ok i

/-- An instruction is ill-formed exactly if it has a mode digit 3 to 9 or an immediate destination: the illegal
encodings of R64 that an instruction word with an opcode can have. -/
def Obligations.IllFormedMeansAnIllegalModeOfTheList : Prop :=
  ∀ i : Instr, i.wellFormed = false ↔
    ∃ (n : Nat) (m : Mode) (p : Path), i.modes[n]? = some m ∧ i.format.paths[n]? = some p ∧
      ((∃ k, m = .unknown k) ∨ (m = .immediate ∧ p = .write))

/-! ### Memory and channels -/

/-- R30: a cell holds the value most recently written to it, by `Reset` or by `MemWrite`, and 0 where there is none;
reading any address before leaves every value as it was. -/
def Obligations.MemoryHoldsTheMostRecentWrite : Prop :=
  (∀ (image : List Word) (writes : List (Nat × Word)) (a : Nat),
    readCell (writes.foldl (fun s w => memWrite w.1 w.2 s) (resetWith image)).mem a =
      match writes.reverse.find? (fun w => w.1 = a) with
      | some w => w.2
      | none => image.getD a 0) ∧
  ∀ (s : State) (a b : Nat), (memRead a (memRead b s).2).1 = (memRead a s).1

/-- R33: `MemRead(a)` gives `Mem[a]`, adds `a` to `MemDom`, and changes nothing else. -/
def Obligations.MemReadGivesTheCellAndMaterialisesIt : Prop :=
  ∀ (s : State) (a : Nat), (memRead a s).1 = readCell s.mem a ∧
    (∀ x, x ∈ (memRead a s).2.memDom ↔ x = a ∨ x ∈ s.memDom) ∧
    (memRead a s).2 = { s with memDom := (memRead a s).2.memDom }

/-- R34: `MemWrite(a, v)` sets `Mem[a]`, adds `a` to `MemDom`, and changes no other cell and nothing else. -/
def Obligations.MemWriteSetsOneCell : Prop :=
  ∀ (s : State) (a : Nat) (v : Word), readCell (memWrite a v s).mem a = v ∧
    (∀ x, x ≠ a → readCell (memWrite a v s).mem x = readCell s.mem x) ∧
    (∀ x, x ∈ (memWrite a v s).memDom ↔ x = a ∨ x ∈ s.memDom) ∧
    memWrite a v s = { s with mem := (memWrite a v s).mem, memDom := (memWrite a v s).memDom }

/-- Memories in canonical form that read the same at every address are the same data (R20, R30; log entry 2). -/
def Obligations.EqualContentsAreEqualMemories : Prop :=
  ∀ m m' : Memory, m.wf → m'.wf → (∀ a, readCell m a = readCell m' a) → m = m'

/-- R44, R45, R46: emptiness, pop from the front, push at the back. -/
def Obligations.InputChannelIsAQueue : Prop :=
  ∀ (s : State) (v : Word) (rest : List Word),
    (inEmpty s = true ↔ s.input = []) ∧
    (s.input = v :: rest → inPop s = some (v, { s with input := rest })) ∧
    inPush v s = { s with input := s.input ++ [v] }

/-- R47, R48: push at the back, pop from the front, and `None` without change where the queue is empty. -/
def Obligations.OutputChannelIsAQueue : Prop :=
  ∀ (s : State) (v : Word) (rest : List Word),
    outPush v s = { s with output := s.output ++ [v] } ∧
    (s.output = v :: rest → outPop s = (some v, { s with output := rest })) ∧
    (s.output = [] → outPop s = (none, s))

/-! ### Reset and host operations -/

/-- R26, R150: what `Reset(image)` leaves. The zeros of `IP` and `RB` and the empty channels are the spec's decision D5.
`IW` is left out: its value is the model's choice (log entry 4). -/
def Obligations.ResetLoadsTheImageAndClearsTheRest : Prop :=
  ∀ image : List Word,
    (∀ a, readCell (resetWith image).mem a = image.getD a 0) ∧
    (∀ a, a ∈ (resetWith image).memDom ↔ a < image.length) ∧
    (resetWith image).ip = 0 ∧ (resetWith image).rb = 0 ∧ (resetWith image).input = [] ∧
    (resetWith image).output = [] ∧ (resetWith image).status = .runnable ∧ (resetWith image).fault = none

/-- The reset state meets the invariant. -/
def Obligations.ResetStateMeetsTheInvariant : Prop := State.reset.Inv

/-- So does the state after `Reset` of any image that lies in `Addr` (R150, R153). -/
def Obligations.ResetWithAnImageMeetsTheInvariant : Prop :=
  ∀ image : List Word, image.length ≤ Config.addrMax + 1 → (resetWith image).Inv

/-- R126: `push_input` changes only `IN`, in every `STATE`. -/
def Obligations.PushInputChangesOnlyTheInputChannel : Prop :=
  ∀ (s : State) (v : Word), pushInput v s = { s with input := s.input ++ [v] }

/-- R127: each byte's value, in order, nothing added. That a byte is unsigned is the spec's decision D18. -/
def Obligations.PushAsciiPushesEachByteInOrder : Prop :=
  ∀ (bytes : List (BitVec 8)) (s : State), ∃ vs : List Word,
    pushAscii bytes s = { s with input := s.input ++ vs } ∧
    vs.map BitVec.toInt = bytes.map fun b => (b.toNat : Int)

/-- R128: `pop_output` gives the oldest entry and removes it, or gives `None` and changes nothing. -/
def Obligations.PopOutputTakesTheOldestEntry : Prop :=
  ∀ s : State, (s.output = [] → popOutput s = (none, s)) ∧
    ∀ v rest, s.output = v :: rest → popOutput s = (some v, { s with output := rest })

/-- The host's operations between runs keep the invariant (R25, R126 to R128). -/
def Obligations.HostOperationsKeepTheInvariant : Prop :=
  ∀ s : State, s.Inv →
    (∀ v, (pushInput v s).Inv) ∧ (∀ bytes, (pushAscii bytes s).Inv) ∧ (popOutput s).2.Inv ∧
    (∀ n rep t, run n s = some (rep, t) → t.Inv)

/-! ### Faults and the fetch -/

/-- R112: `raise K` sets `STATE` and `FAULT`, changes nothing else, abandons the rest of the step, and the run that it
ends reports `Faulted(K)`. The rest is whatever would use a value of any type: a later part of the step (`bind`), so
that a check that raises inside a parameter raises the parameter, or its end (`finish`). -/
def Obligations.RaiseSetsStateAndFaultAndEndsTheStep : Prop :=
  ∀ (k : FaultKind) (s : State),
    raise k s = { s with status := .error, fault := some k } ∧
    (∀ (α β : Type) (rest : α → State → Res β), (Res.raised (raise k s)).bind rest = .raised (raise k s)) ∧
    (∀ (α β : Type) (rest : α → State → Res β), (Res.check (.error k) s).bind rest = .raised (raise k s)) ∧
    (∀ (α : Type) (rest : α → State → Outcome), (Res.raised (raise k s)).finish rest = .next (raise k s)) ∧
    reportOf (raise k s) = some (.faulted k) ∧
    ∀ n, runLoop n (raise k s) = some (raise k s)

/-- The addressing modes (R56, R58) and their order of checks. The faults on a negative address and on a sum out of
range are the spec's decisions D3 and D2, the order D25. -/
def Obligations.AddressingModesResolveAsListed : Prop :=
  (∀ p rb : Word,
    (0 ≤ p.toInt → effective .position p rb = .ok p.toInt.toNat) ∧
    (p.toInt < 0 → effective .position p rb = .error .negativeAddress) ∧
    (Fits (p.toInt + rb.toInt) → 0 ≤ p.toInt + rb.toInt →
      effective .relative p rb = .ok (p.toInt + rb.toInt).toNat) ∧
    (Fits (p.toInt + rb.toInt) → p.toInt + rb.toInt < 0 → effective .relative p rb = .error .negativeAddress) ∧
    (¬ Fits (p.toInt + rb.toInt) → effective .relative p rb = .error .arithmeticOverflow) ∧
    effective .immediate p rb = .error .badParameterMode ∧
    ∀ k, effective (.unknown k) p rb = .error .unknownAccessMode) ∧
  ∀ (s : State) (k : Nat),
    s.source .immediate k = .ok (s.rawParam k) ∧
    ∀ m, m ≠ .immediate →
      (∀ e, effective m (s.rawParam k) s.rb = .ok e → s.source m k = .ok (readCell s.mem e)) ∧
      (∀ f, effective m (s.rawParam k) s.rb = .error f → s.source m k = .error f)

/-- When the word at `IP` decodes, a step is the execution of the instruction in the state the fetch leaves: `IP` one
further, the word latched, its address materialised (R55, R66), and `Runnable` (R124; from `AwaitingInput` by log
entry 13). -/
def Obligations.StepRunsTheDecodedInstruction : Prop :=
  ∀ (s : State) (i : Instr), s.Live → s.hasRoom 1 → decode s.nextWord = .ok i →
    step s = exec i { s with status := .runnable, ip := s.ip + 1, iw := readCell s.mem s.ip.toInt.toNat,
                             memDom := insertAddr s.ip.toInt.toNat s.memDom }

/-- The two faults of the fetch before the word is judged (R55): the guard on a negative `IP`, which is left as it is
(decisions D3, D22), and the increment that would pass `INT_MAX` (R14, decision D2). -/
def Obligations.FetchFaultsOnNegativeAndOnLastAddress : Prop :=
  ∀ s : State, s.Live →
    (s.ip.toInt < 0 → step s = .next { s with status := .error, fault := some .negativeAddress }) ∧
    (s.ip.toInt = intMax → step s = .next { s with
      status := .error, fault := some .arithmeticOverflow, iw := readCell s.mem s.ip.toInt.toNat,
      memDom := insertAddr s.ip.toInt.toNat s.memDom })

/-- A word that is negative (R52, decision D6) or whose last two digits are no opcode (R104) faults after the fetch,
with `IP` one past it and nothing else changed. -/
def Obligations.UnknownOpcodeFaultsAfterTheFetch : Prop :=
  ∀ s : State, s.Live → s.hasRoom 1 →
    (s.nextWord.toInt < 0 ∨ s.nextWord.toInt % 100 ∉ [1, 2, 3, 4, 5, 6, 7, 8, 9, 99]) →
    step s = .next { s with
      status := .error, fault := some .unknownOpcode, ip := s.ip + 1, iw := s.nextWord,
      memDom := insertAddr s.ip.toInt.toNat s.memDom }

/-- A store is seen by the very next fetch (R49): an instruction stored at `IP` is the one that runs. -/
def Obligations.StoredInstructionIsTheOneFetched : Prop :=
  ∀ (s : State) (i : Instr), s.Live → s.hasRoom 1 →
    step (memWrite s.ip.toInt.toNat (encode i) s) =
      exec i { s with
        status := .runnable, ip := s.ip + 1, iw := encode i,
        mem := writeCell s.mem s.ip.toInt.toNat (encode i), memDom := insertAddr s.ip.toInt.toNat s.memDom }

/-! ### What each instruction does -/

/-- `ADD` (R80): where the three parameters resolve and the sum fits, the sum is stored, `IP` is past the three
parameter words, the cells accessed exist, and nothing else changes. -/
def Obligations.AddStoresTheExactSum : Prop :=
  ∀ (s : State) (m1 m2 m3 : Mode) (a b : Word) (d : Nat), s.hasRoom 3 → s.source m1 0 = .ok a →
    s.source m2 1 = .ok b → s.dest m3 2 = .ok d → Fits (a.toInt + b.toInt) →
    ∃ v : Word, v.toInt = a.toInt + b.toInt ∧
      exec (.add m1 m2 m3) s = .next { s with
        mem := writeCell s.mem d v, ip := s.ip + 3,
        memDom := touchAll (s.sourceReads m1 0 ++ s.sourceReads m2 1 ++ [s.cursor 2, d]) s.memDom }

/-- `MUL` (R81), as `ADD` with the product. -/
def Obligations.MulStoresTheExactProduct : Prop :=
  ∀ (s : State) (m1 m2 m3 : Mode) (a b : Word) (d : Nat), s.hasRoom 3 → s.source m1 0 = .ok a →
    s.source m2 1 = .ok b → s.dest m3 2 = .ok d → Fits (a.toInt * b.toInt) →
    ∃ v : Word, v.toInt = a.toInt * b.toInt ∧
      exec (.mul m1 m2 m3) s = .next { s with
        mem := writeCell s.mem d v, ip := s.ip + 3,
        memDom := touchAll (s.sourceReads m1 0 ++ s.sourceReads m2 1 ++ [s.cursor 2, d]) s.memDom }

/-- `LT` (R95): 1 if `a < b` as signed integers, else 0; it never overflows. -/
def Obligations.LtStoresOneExactlyWhenLess : Prop :=
  ∀ (s : State) (m1 m2 m3 : Mode) (a b : Word) (d : Nat), s.hasRoom 3 → s.source m1 0 = .ok a →
    s.source m2 1 = .ok b → s.dest m3 2 = .ok d →
    exec (.lt m1 m2 m3) s = .next { s with
      mem := writeCell s.mem d (if a.toInt < b.toInt then 1 else 0), ip := s.ip + 3,
      memDom := touchAll (s.sourceReads m1 0 ++ s.sourceReads m2 1 ++ [s.cursor 2, d]) s.memDom }

/-- `EQ` (R96): 1 if `a = b`, else 0. -/
def Obligations.EqStoresOneExactlyWhenEqual : Prop :=
  ∀ (s : State) (m1 m2 m3 : Mode) (a b : Word) (d : Nat), s.hasRoom 3 → s.source m1 0 = .ok a →
    s.source m2 1 = .ok b → s.dest m3 2 = .ok d →
    exec (.eq m1 m2 m3) s = .next { s with
      mem := writeCell s.mem d (if a = b then 1 else 0), ip := s.ip + 3,
      memDom := touchAll (s.sourceReads m1 0 ++ s.sourceReads m2 1 ++ [s.cursor 2, d]) s.memDom }

/-- `IN` with input available (R85): the oldest entry is removed and stored. -/
def Obligations.InStoresTheOldestInput : Prop :=
  ∀ (s : State) (m1 : Mode) (v : Word) (rest : List Word) (d : Nat), s.hasRoom 1 → s.input = v :: rest →
    s.dest m1 0 = .ok d →
    exec (.inp m1) s = .next { s with
      mem := writeCell s.mem d v, input := rest, ip := s.ip + 1,
      memDom := touchAll [s.cursor 0, d] s.memDom }

/-- `OUT` (R86): the operand is appended to the output. -/
def Obligations.OutAppendsTheOperand : Prop :=
  ∀ (s : State) (m1 : Mode) (a : Word), s.hasRoom 1 → s.source m1 0 = .ok a →
    exec (.out m1) s = .next { s with
      output := s.output ++ [a], ip := s.ip + 1, memDom := touchAll (s.sourceReads m1 0) s.memDom }

/-- `JT` (R90, R92, R93): taken exactly if `a ≠ 0`, to whatever value the second operand has. -/
def Obligations.JtJumpsExactlyWhenNonzero : Prop :=
  ∀ (s : State) (m1 m2 : Mode) (a b : Word), s.hasRoom 2 → s.source m1 0 = .ok a → s.source m2 1 = .ok b →
    exec (.jt m1 m2) s = .next { s with
      ip := if a.toInt ≠ 0 then b else s.ip + 2,
      memDom := touchAll (s.sourceReads m1 0 ++ s.sourceReads m2 1) s.memDom }

/-- `JF` (R91, R92, R93): taken exactly if `a = 0`. -/
def Obligations.JfJumpsExactlyWhenZero : Prop :=
  ∀ (s : State) (m1 m2 : Mode) (a b : Word), s.hasRoom 2 → s.source m1 0 = .ok a → s.source m2 1 = .ok b →
    exec (.jf m1 m2) s = .next { s with
      ip := if a.toInt = 0 then b else s.ip + 2,
      memDom := touchAll (s.sourceReads m1 0 ++ s.sourceReads m2 1) s.memDom }

/-- `ARB` (R100): the operand, read through the old `RB`, is added to `RB` where the sum fits. -/
def Obligations.ArbAddsTheOperandToTheRelativeBase : Prop :=
  ∀ (s : State) (m1 : Mode) (a : Word), s.hasRoom 1 → s.source m1 0 = .ok a → Fits (s.rb.toInt + a.toInt) →
    ∃ v : Word, v.toInt = s.rb.toInt + a.toInt ∧
      exec (.arb m1) s = .next { s with
        rb := v, ip := s.ip + 1, memDom := touchAll (s.sourceReads m1 0) s.memDom }

/-- R103: every word `99 + 100*h` halts, with `IP` one past it and nothing else changed; the run reports success, and a
further run is rejected without executing anything. -/
def Obligations.HltTerminatesTheMachine : Prop :=
  (∀ s : State, exec .hlt s = .next { s with status := .terminated }) ∧
  ∀ (s : State) (h : Nat), s.Live → s.hasRoom 1 → s.nextWord.toInt = 99 + 100 * h →
    ∃ t : State, t = { s with
        status := .terminated, ip := s.ip + 1, iw := s.nextWord,
        memDom := insertAddr s.ip.toInt.toNat s.memDom } ∧
      step s = .next t ∧ (∀ n, run (n + 1) s = some (.halted, t)) ∧
      step t = .refused .programTerminated ∧ ∀ n, run n t = some (.rejected .programTerminated, t)

/-- An `IN` that finds the channel empty suspends with `IP` on its instruction word (R85); the fetch has latched the word
and materialised its address (R55, R33); the run reports `NeedInput` (R124); run again with the channel still empty it
suspends again at once in the same state, and with a value pushed the next invocation does exactly what it would have
done had the value been there before (R119). That `step` of a suspended machine is that invocation is the model's choice,
log entry 13. -/
def Obligations.InSuspendsAndResumesFromScratch : Prop :=
  ∀ (s : State) (m : Mode), s.Live → s.hasRoom 1 → decode s.nextWord = .ok (.inp m) → s.input = [] →
    ∃ t : State, t = { s with
        status := .awaitingInput, iw := s.nextWord, memDom := insertAddr s.ip.toInt.toNat s.memDom } ∧
      step s = .next t ∧ (∀ n, run (n + 1) s = some (.needInput, t)) ∧
      step t = .next t ∧ (∀ n, run (n + 1) t = some (.needInput, t)) ∧
      ∀ v, step (pushInput v t) = step (pushInput v s)

/-! ### Where an instruction faults -/

/-- A first source that does not resolve (R59, R113, R115): its fault is raised whatever the later parameters are, with
`IP` on the failing parameter word (the spec's decision D4), which has been read. -/
def Obligations.FirstSourceFaultStopsOnItsWord : Prop :=
  ∀ (s : State) (m m2 m3 : Mode) (k : FaultKind) (i : Instr),
    i ∈ [Instr.add m m2 m3, .mul m m2 m3, .lt m m2 m3, .eq m m2 m3, .jt m m2, .jf m m2, .out m, .arb m] →
    0 ≤ s.ip.toInt → s.source m 0 = .error k →
    exec i s = .next { s with
      status := .error, fault := some k, memDom := insertAddr (s.cursor 0) s.memDom }

/-- A second source that does not resolve, after a first that does; a jump is not made even if its condition holds
(R90, R93, R113, R115; decision D4). -/
def Obligations.SecondSourceFaultStopsOnItsWord : Prop :=
  ∀ (s : State) (m1 m m3 : Mode) (a : Word) (k : FaultKind) (i : Instr),
    i ∈ [Instr.add m1 m m3, .mul m1 m m3, .lt m1 m m3, .eq m1 m m3, .jt m1 m, .jf m1 m] →
    s.hasRoom 1 → s.source m1 0 = .ok a → s.source m 1 = .error k →
    exec i s = .next { s with
      status := .error, fault := some k, ip := s.ip + 1,
      memDom := touchAll (s.sourceReads m1 0 ++ [s.cursor 1]) s.memDom }

/-- A destination that does not resolve, after two sources that do: nothing is stored, and the fault comes before any
overflow of the result (R83, R113, R115; decisions D4, D23). -/
def Obligations.DestinationFaultStoresNothing : Prop :=
  ∀ (s : State) (m1 m2 m : Mode) (a b : Word) (k : FaultKind) (i : Instr),
    i ∈ [Instr.add m1 m2 m, .mul m1 m2 m, .lt m1 m2 m, .eq m1 m2 m] →
    s.hasRoom 2 → s.source m1 0 = .ok a → s.source m2 1 = .ok b → s.dest m 2 = .error k →
    exec i s = .next { s with
      status := .error, fault := some k, ip := s.ip + 2,
      memDom := touchAll (s.sourceReads m1 0 ++ s.sourceReads m2 1 ++ [s.cursor 2]) s.memDom }

/-- `IN` with input available and a destination that does not resolve: nothing is popped and nothing is stored
(R85, the spec's decision D8). -/
def Obligations.InDestinationFaultKeepsTheInput : Prop :=
  ∀ (s : State) (m : Mode) (k : FaultKind), 0 ≤ s.ip.toInt → s.input ≠ [] → s.dest m 0 = .error k →
    exec (.inp m) s = .next { s with
      status := .error, fault := some k, memDom := insertAddr (s.cursor 0) s.memDom }

/-- A sum or product that does not fit: `ArithmeticOverflow`, nothing stored, `IP` past all parameters (R82, R83; the
spec's decisions D2 and D23). -/
def Obligations.ArithmeticOverflowStoresNothing : Prop :=
  ∀ (s : State) (m1 m2 m3 : Mode) (a b : Word) (d : Nat), s.hasRoom 3 → s.source m1 0 = .ok a →
    s.source m2 1 = .ok b → s.dest m3 2 = .ok d →
    ∃ t : State, t = { s with
        status := .error, fault := some .arithmeticOverflow, ip := s.ip + 3,
        memDom := touchAll (s.sourceReads m1 0 ++ s.sourceReads m2 1 ++ [s.cursor 2]) s.memDom } ∧
      (¬ Fits (a.toInt + b.toInt) → exec (.add m1 m2 m3) s = .next t) ∧
      (¬ Fits (a.toInt * b.toInt) → exec (.mul m1 m2 m3) s = .next t)

/-- `ARB` whose sum does not fit: `RB` is unchanged and `IP` is past the parameter (R100, the spec's decision D2). -/
def Obligations.BaseOverflowLeavesTheRelativeBase : Prop :=
  ∀ (s : State) (m1 : Mode) (a : Word), s.hasRoom 1 → s.source m1 0 = .ok a → ¬ Fits (s.rb.toInt + a.toInt) →
    exec (.arb m1) s = .next { s with
      status := .error, fault := some .arithmeticOverflow, ip := s.ip + 1,
      memDom := touchAll (s.sourceReads m1 0) s.memDom }

/-- A parameter word at the last address: it resolves, and stepping past it overflows with `IP` left there
(R14, R113, R115; the spec's decision D2). -/
def Obligations.SteppingPastTheLastCellOverflows : Prop :=
  ∀ (s : State) (m1 m2 m3 : Mode),
    (∀ a i, i ∈ [Instr.add m1 m2 m3, .mul m1 m2 m3, .lt m1 m2 m3, .eq m1 m2 m3, .jt m1 m2, .jf m1 m2, .out m1,
        .arb m1] →
      s.ip.toInt = intMax → s.source m1 0 = .ok a →
      exec i s = .next (raise .arithmeticOverflow { s with memDom := touchAll (s.sourceReads m1 0) s.memDom })) ∧
    (∀ a b i, i ∈ [Instr.add m1 m2 m3, .mul m1 m2 m3, .lt m1 m2 m3, .eq m1 m2 m3, .jt m1 m2, .jf m1 m2] →
      s.ip.toInt = intMax - 1 → s.source m1 0 = .ok a → s.source m2 1 = .ok b →
      exec i s = .next (raise .arithmeticOverflow { s with
        ip := s.ip + 1, memDom := touchAll (s.sourceReads m1 0 ++ s.sourceReads m2 1) s.memDom })) ∧
    (∀ a b d i, i ∈ [Instr.add m1 m2 m3, .mul m1 m2 m3, .lt m1 m2 m3, .eq m1 m2 m3] →
      s.ip.toInt = intMax - 2 → s.source m1 0 = .ok a → s.source m2 1 = .ok b → s.dest m3 2 = .ok d →
      exec i s = .next (raise .arithmeticOverflow { s with
        ip := s.ip + 2,
        memDom := touchAll (s.sourceReads m1 0 ++ s.sourceReads m2 1 ++ [s.cursor 2]) s.memDom })) ∧
    (∀ d, s.ip.toInt = intMax → s.input ≠ [] → s.dest m1 0 = .ok d →
      exec (.inp m1) s = .next (raise .arithmeticOverflow { s with memDom := touchAll [s.cursor 0] s.memDom }))

/-! ### Frames -/

/-- What `ADD`, `MUL`, `LT` and `EQ` leave unchanged (R80, R81, R95, R96), whether they complete or fault: every cell
but the destination, every register but `IP`, the channels; and if the status changes it is a fault that stored nothing. -/
def Obligations.ThreeParameterInstructionsFrame : Prop :=
  ∀ (s t : State) (m1 m2 m3 : Mode) (i : Instr),
    i ∈ [Instr.add m1 m2 m3, .mul m1 m2 m3, .lt m1 m2 m3, .eq m1 m2 m3] → exec i s = .next t →
    (∀ d, s.dest m3 2 = .ok d → ∀ x, x ≠ d → readCell t.mem x = readCell s.mem x) ∧
    (∀ k, s.dest m3 2 = .error k → ∀ x, readCell t.mem x = readCell s.mem x) ∧
    t.rb = s.rb ∧ t.input = s.input ∧ t.output = s.output ∧ t.iw = s.iw ∧
    (∀ x, x ∈ s.memDom → x ∈ t.memDom) ∧
    ((t.status = s.status ∧ t.fault = s.fault) ∨
      (t.status = .error ∧ t.fault ≠ none ∧ ∀ x, readCell t.mem x = readCell s.mem x))

/-- What `IN` leaves unchanged (R85): every cell but the destination, `RB`, the output; with the channel empty, all of
memory, `MemDom` and the channel; on a fault, all of memory and the channel. -/
def Obligations.InFrame : Prop :=
  ∀ (s t : State) (m1 : Mode), exec (.inp m1) s = .next t →
    (∀ d, s.dest m1 0 = .ok d → ∀ x, x ≠ d → readCell t.mem x = readCell s.mem x) ∧
    (∀ k, s.dest m1 0 = .error k → ∀ x, readCell t.mem x = readCell s.mem x) ∧
    t.rb = s.rb ∧ t.output = s.output ∧ t.iw = s.iw ∧ (∀ x, x ∈ s.memDom → x ∈ t.memDom) ∧
    (s.input = [] → t = { s with ip := s.ip - 1, status := .awaitingInput }) ∧
    (s.input ≠ [] →
      (t.status = s.status ∧ t.fault = s.fault ∧ t.input = s.input.tail) ∨
      (t.status = .error ∧ t.fault ≠ none ∧ t.input = s.input ∧ ∀ x, readCell t.mem x = readCell s.mem x))

/-- What `OUT`, `JT`, `JF` and `ARB` leave unchanged (R86, R90, R91, R100): all of memory, the input, `RB` but for `ARB`
and the output but for `OUT`; and if the status changes it is a fault that left those two as well. -/
def Obligations.InstructionsThatStoreNothingFrame : Prop :=
  ∀ (s t : State) (m1 m2 : Mode) (i : Instr), i ∈ [Instr.out m1, .jt m1 m2, .jf m1 m2, .arb m1] →
    exec i s = .next t →
    (∀ x, readCell t.mem x = readCell s.mem x) ∧ t.input = s.input ∧ t.iw = s.iw ∧
    (∀ x, x ∈ s.memDom → x ∈ t.memDom) ∧ (i ≠ .arb m1 → t.rb = s.rb) ∧ (i ≠ .out m1 → t.output = s.output) ∧
    ((t.status = s.status ∧ t.fault = s.fault) ∨
      (t.status = .error ∧ t.fault ≠ none ∧ t.rb = s.rb ∧ t.output = s.output))

/-! ### The whole machine -/

/-- Every step keeps the invariant: the canonical forms, the existence of written cells (R21, R34), the fault latch (R19). -/
def Obligations.EveryStepKeepsTheInvariant : Prop :=
  ∀ s t : State, s.Inv → step s = .next t → t.Inv

/-- A `Runnable` machine always takes a step (R66, R131), and a terminal machine never does (R121, R137; that a machine in
`Error` is turned away is the spec's decision D7). That a machine in `AwaitingInput` always takes one, and that the two
rejections of `Run` are refusals of `step`, is the model's choice, log entry 13: R66 calls `Step` in `Runnable` alone, and
only `Run` leaves `AwaitingInput` (R135). -/
def Obligations.LiveMachinesStepAndTerminalOnesDoNot : Prop :=
  ∀ s : State, (s.Live → ∃ t, step s = .next t) ∧ (s.status = .terminated → step s = .refused .programTerminated) ∧
    (s.status = .error → step s = .refused .machineInError)

/-- The shadow set and the latch cannot be observed (R21, R24; decisions D10, D17): two states that agree on everything
else step to states that agree on everything else. -/
def Obligations.ShadowStateCannotBeObserved : Prop :=
  ∀ s t : State, s.SameButShadow t →
    (∀ s', step s = .next s' → ∃ t', step t = .next t' ∧ s'.SameButShadow t') ∧
    (∀ r, step s = .refused r → step t = .refused r)

/-- No address ever leaves `MemDom` in a step (R21). -/
def Obligations.ExistingAddressesNeverDisappear : Prop :=
  ∀ s t : State, step s = .next t → ∀ a, a ∈ s.memDom → a ∈ t.memDom

/-- `RB` is written only by `ARB` (R16). -/
def Obligations.OnlyArbWritesTheRelativeBase : Prop :=
  ∀ s t : State, step s = .next t → t.rb ≠ s.rb → ∃ m, decode s.nextWord = .ok (.arb m)

/-- Input is consumed only by `IN`, one entry from the front (R22). -/
def Obligations.OnlyInConsumesInput : Prop :=
  ∀ s t : State, step s = .next t → t.input ≠ s.input →
    ∃ m v, decode s.nextWord = .ok (.inp m) ∧ s.input = v :: t.input

/-- Output is appended only by `OUT`, one entry at the back (R23). -/
def Obligations.OnlyOutAppendsOutput : Prop :=
  ∀ s t : State, step s = .next t → t.output ≠ s.output →
    ∃ m v, decode s.nextWord = .ok (.out m) ∧ t.output = s.output ++ [v]

/-- The transitions of `STATE` a step makes (R66, R87, R123): it suspends exactly on an `IN` with the channel empty,
terminates exactly on `HLT`, and otherwise goes on or faults, and `FAULT` is written exactly by a fault. -/
def Obligations.StepMakesTheTransitionsOfTheTable : Prop :=
  ∀ s t : State, step s = .next t →
    (t.status = .awaitingInput ↔ s.hasRoom 1 ∧ s.input = [] ∧ ∃ m, decode s.nextWord = .ok (.inp m)) ∧
    (t.status = .terminated ↔ s.hasRoom 1 ∧ decode s.nextWord = .ok .hlt) ∧
    (t.status = .error → t.fault ≠ none) ∧ (t.status ≠ .error → t.fault = s.fault)

/-- Faults are precise (R113, R114): a step that faults stores nothing, leaves the channels and `RB`, makes no jump, and
only adds to `MemDom`. -/
def Obligations.FaultingStepHasNoEffectOfItsOwn : Prop :=
  ∀ s t : State, step s = .next t → t.status = .error →
    t.mem = s.mem ∧ t.rb = s.rb ∧ t.input = s.input ∧ t.output = s.output ∧
    (∀ a, a ∈ s.memDom → a ∈ t.memDom) ∧ s.ip.toInt ≤ t.ip.toInt ∧ t.ip.toInt ≤ s.ip.toInt + 4

/-- `Run` on a `Terminated` machine executes nothing, changes nothing and reports `ProgramTerminated` (R121). That the
rejection is a refusal of `step` too is the model's choice, log entry 13. -/
def Obligations.TerminatedMachineRejectsEveryRun : Prop :=
  ∀ (s : State) (n : Nat), s.status = .terminated →
    step s = .refused .programTerminated ∧ run n s = some (.rejected .programTerminated, s)

/-- `Run` on a machine in `Error` is rejected in the same way (R137, the spec's decision D7). That the rejection is a
refusal of `step` too is the model's choice, log entry 13. -/
def Obligations.MachineInErrorRejectsEveryRun : Prop :=
  ∀ (s : State) (n : Nat), s.status = .error →
    step s = .refused .machineInError ∧ run n s = some (.rejected .machineInError, s)

/-- `Run` is the loop of steps (R124), under fuel (log entry 14). Where it answers, the state it leaves is the first that
is not `Runnable` of those that one or more steps reach, within the fuel, and the report is that state's; and where some
number of steps within the fuel first reaches such a state, `Run` answers that state and its report. So it answers nothing
exactly where the fuel ends first (R136). That the first step of a machine in `AwaitingInput` is the first of its `Run` is
the model's choice, log entry 13. -/
def Obligations.RunIsTheIteratedStep : Prop :=
  ∀ (n : Nat) (s t : State), s.Live →
    (∀ rep, run n s = some (rep, t) → (∃ k, k ≤ n ∧ s.StopsAfter k t) ∧ reportOf t = some rep) ∧
    ((∃ k, k ≤ n ∧ s.StopsAfter k t) → ∃ rep, reportOf t = some rep ∧ run n s = some (rep, t))

/-- A run that ends needs no more fuel than it had (R124, R136): more changes nothing. -/
def Obligations.MoreFuelGivesTheSameRun : Prop :=
  ∀ (n k : Nat) (s : State) (out : Report × State), run n s = some out → run (n + k) s = some out

/-- A text of which one token is malformed does not load (R77, R122). Malformed are, whatever the loader's leniency: an
empty token, so an empty text; a `-` alone; digits, with or without `-`, whose value does not fit; and a token with a
character that is no digit, no sign and no white space (R78, the spec's decision D14; which characters are white space is
log entry 17). Digits whose value fits, with or without `-`, are that value. -/
def Obligations.MalformedTokenFailsTheLoad : Prop :=
  (∀ (text token : List Char), token ∈ splitCommas text → parseToken Config.loaderLenient token = none →
    loadText text = none) ∧
  (∀ lenient, parseToken lenient [] = none ∧ parseToken lenient ['-'] = none) ∧ loadText [] = none ∧
  (∀ (lenient : Bool) (digits : List (Fin 10)) (token : List Char) (n : Nat), digits ≠ [] →
    token = digits.map (fun d => d.val.digitChar) → n = digits.foldl (fun value d => 10 * value + d.val) 0 →
    (¬ Fits n → parseToken lenient token = none) ∧
    (¬ Fits (-n) → parseToken lenient ('-' :: token) = none) ∧
    (Fits n → ∃ v : Word, v.toInt = n ∧ parseToken lenient token = some v) ∧
    (Fits (-n) → ∃ v : Word, v.toInt = -n ∧ parseToken lenient ('-' :: token) = some v)) ∧
  ∀ (lenient : Bool) (token : List Char) (c : Char), c ∈ token → c.isDigit = false →
    c ∉ ['-', '+', ' ', '\t', '\n', '\r'] → parseToken lenient token = none
end

