-- ==== Sys2Proof/Laws/State.lean ====
section
/-! SUPPORT. What each update of the state does to each field, one lemma per field per update. -/

namespace Sys2Proof.Machine

variable (s : State) (k : FaultKind) (a : Nat) (v : Word)

@[simp] theorem raise_mem : (raise k s).mem = s.mem := rfl
@[simp] theorem raise_memDom : (raise k s).memDom = s.memDom := rfl
@[simp] theorem raise_ip : (raise k s).ip = s.ip := rfl
@[simp] theorem raise_rb : (raise k s).rb = s.rb := rfl
@[simp] theorem raise_input : (raise k s).input = s.input := rfl
@[simp] theorem raise_output : (raise k s).output = s.output := rfl
@[simp] theorem raise_status : (raise k s).status = .error := rfl
@[simp] theorem raise_fault : (raise k s).fault = some k := rfl
@[simp] theorem raise_iw : (raise k s).iw = s.iw := rfl

@[simp] theorem touch_mem : (s.touch a).mem = s.mem := rfl
@[simp] theorem touch_memDom : (s.touch a).memDom = insertAddr a s.memDom := rfl
@[simp] theorem touch_ip : (s.touch a).ip = s.ip := rfl
@[simp] theorem touch_rb : (s.touch a).rb = s.rb := rfl
@[simp] theorem touch_input : (s.touch a).input = s.input := rfl
@[simp] theorem touch_output : (s.touch a).output = s.output := rfl
@[simp] theorem touch_status : (s.touch a).status = s.status := rfl
@[simp] theorem touch_fault : (s.touch a).fault = s.fault := rfl
@[simp] theorem touch_iw : (s.touch a).iw = s.iw := rfl

@[simp] theorem memWrite_mem : (memWrite a v s).mem = writeCell s.mem a v := rfl
@[simp] theorem memWrite_memDom : (memWrite a v s).memDom = insertAddr a s.memDom := rfl
@[simp] theorem memWrite_ip : (memWrite a v s).ip = s.ip := rfl
@[simp] theorem memWrite_rb : (memWrite a v s).rb = s.rb := rfl
@[simp] theorem memWrite_input : (memWrite a v s).input = s.input := rfl
@[simp] theorem memWrite_output : (memWrite a v s).output = s.output := rfl
@[simp] theorem memWrite_status : (memWrite a v s).status = s.status := rfl
@[simp] theorem memWrite_fault : (memWrite a v s).fault = s.fault := rfl
@[simp] theorem memWrite_iw : (memWrite a v s).iw = s.iw := rfl

@[simp] theorem suspend_mem : (suspend s).mem = s.mem := rfl
@[simp] theorem suspend_memDom : (suspend s).memDom = s.memDom := rfl
@[simp] theorem suspend_ip : (suspend s).ip = s.ip - 1 := rfl
@[simp] theorem suspend_rb : (suspend s).rb = s.rb := rfl
@[simp] theorem suspend_input : (suspend s).input = s.input := rfl
@[simp] theorem suspend_output : (suspend s).output = s.output := rfl
@[simp] theorem suspend_status : (suspend s).status = .awaitingInput := rfl
@[simp] theorem suspend_fault : (suspend s).fault = s.fault := rfl
@[simp] theorem suspend_iw : (suspend s).iw = s.iw := rfl

@[simp] theorem halt_mem : (halt s).mem = s.mem := rfl
@[simp] theorem halt_memDom : (halt s).memDom = s.memDom := rfl
@[simp] theorem halt_ip : (halt s).ip = s.ip := rfl
@[simp] theorem halt_rb : (halt s).rb = s.rb := rfl
@[simp] theorem halt_input : (halt s).input = s.input := rfl
@[simp] theorem halt_output : (halt s).output = s.output := rfl
@[simp] theorem halt_status : (halt s).status = .terminated := rfl
@[simp] theorem halt_fault : (halt s).fault = s.fault := rfl
@[simp] theorem halt_iw : (halt s).iw = s.iw := rfl

@[simp] theorem inPush_mem : (inPush v s).mem = s.mem := rfl
@[simp] theorem inPush_memDom : (inPush v s).memDom = s.memDom := rfl
@[simp] theorem inPush_ip : (inPush v s).ip = s.ip := rfl
@[simp] theorem inPush_rb : (inPush v s).rb = s.rb := rfl
@[simp] theorem inPush_input : (inPush v s).input = s.input ++ [v] := rfl
@[simp] theorem inPush_output : (inPush v s).output = s.output := rfl
@[simp] theorem inPush_status : (inPush v s).status = s.status := rfl
@[simp] theorem inPush_fault : (inPush v s).fault = s.fault := rfl
@[simp] theorem inPush_iw : (inPush v s).iw = s.iw := rfl

@[simp] theorem outPush_mem : (outPush v s).mem = s.mem := rfl
@[simp] theorem outPush_memDom : (outPush v s).memDom = s.memDom := rfl
@[simp] theorem outPush_ip : (outPush v s).ip = s.ip := rfl
@[simp] theorem outPush_rb : (outPush v s).rb = s.rb := rfl
@[simp] theorem outPush_input : (outPush v s).input = s.input := rfl
@[simp] theorem outPush_output : (outPush v s).output = s.output ++ [v] := rfl
@[simp] theorem outPush_status : (outPush v s).status = s.status := rfl
@[simp] theorem outPush_fault : (outPush v s).fault = s.fault := rfl
@[simp] theorem outPush_iw : (outPush v s).iw = s.iw := rfl

@[simp] theorem fetched_mem : (s.fetched).mem = s.mem := rfl
@[simp] theorem fetched_memDom : (s.fetched).memDom = insertAddr s.ip.toInt.toNat s.memDom := rfl
@[simp] theorem fetched_ip : (s.fetched).ip = s.ip + 1 := rfl
@[simp] theorem fetched_rb : (s.fetched).rb = s.rb := rfl
@[simp] theorem fetched_input : (s.fetched).input = s.input := rfl
@[simp] theorem fetched_output : (s.fetched).output = s.output := rfl
@[simp] theorem fetched_status : (s.fetched).status = s.status := rfl
@[simp] theorem fetched_fault : (s.fetched).fault = s.fault := rfl
@[simp] theorem fetched_iw : (s.fetched).iw = s.nextWord := rfl

end Sys2Proof.Machine
end

