-- ==== Sys2Proof/Laws/Memory.lean ====
section
/-! SUPPORT. The laws of memory cells and of the set of existing addresses: reading after writing, and the canonical
form, which every operation keeps. -/

namespace Sys2Proof.Machine

/-! ### Reading after writing -/

theorem readCell_eraseCell (m : Memory) (a x : Nat) :
    readCell (eraseCell a m) x = if x = a then Config.defaultCell else readCell m x := by
  induction m with
  | nil => simp [eraseCell, readCell]
  | cons c rest ih =>
    obtain ⟨b, u⟩ := c
    by_cases hb : b = a
    · subst hb
      have he : eraseCell b ((b, u) :: rest) = eraseCell b rest := by simp [eraseCell]
      rw [he, ih]
      by_cases hx : x = b <;> simp [hx, readCell]
    · have he : eraseCell a ((b, u) :: rest) = (b, u) :: eraseCell a rest := by simp [eraseCell, hb]
      rw [he, readCell, ih, readCell]
      by_cases hx : x = b
      · subst hx; simp [hb]
      · simp [hx]

theorem readCell_insertCell (m : Memory) (a x : Nat) (v : Word) (h : ∀ c ∈ m, c.1 ≠ a) :
    readCell (insertCell a v m) x = if x = a then v else readCell m x := by
  induction m with
  | nil => simp [insertCell, readCell]
  | cons c rest ih =>
    obtain ⟨b, u⟩ := c
    have hb : b ≠ a := h (b, u) (by simp)
    have ih := ih fun c hc => h c (by simp [hc])
    by_cases hlt : a < b
    · simp [insertCell, hlt, readCell]
    · simp only [insertCell, hlt, if_false, readCell, ih]
      by_cases hx : x = b
      · subst hx; simp [hb]
      · simp [hx]

theorem not_mem_eraseCell (m : Memory) (a : Nat) : ∀ c ∈ eraseCell a m, c.1 ≠ a := by
  intro c hc
  simpa using (List.mem_filter.mp hc).2

/-- A write changes the cell it writes, and no other (R34). -/
theorem readCell_writeCell (m : Memory) (a x : Nat) (v : Word) :
    readCell (writeCell m a v) x = if x = a then v else readCell m x := by
  by_cases hv : v = Config.defaultCell
  · rw [writeCell, if_pos hv, readCell_eraseCell, hv]
  · rw [writeCell, if_neg hv, readCell_insertCell _ _ _ _ (not_mem_eraseCell m a), readCell_eraseCell]
    by_cases hx : x = a <;> simp [hx]

/-! ### The canonical form of memory -/

theorem mem_insertCell {m : Memory} {a : Nat} {v : Word} {c : Nat × Word} (h : c ∈ insertCell a v m) :
    c = (a, v) ∨ c ∈ m := by
  induction m with
  | nil => simpa [insertCell] using h
  | cons d rest ih =>
    obtain ⟨b, u⟩ := d
    by_cases hlt : a < b
    · simpa [insertCell, hlt] using h
    · simp only [insertCell, hlt, if_false, List.mem_cons] at h
      rcases h with h | h
      · simp [h]
      · rcases ih h with h | h <;> simp [h]

theorem mem_writeCell {m : Memory} {a : Nat} {v : Word} {c : Nat × Word} (h : c ∈ writeCell m a v) :
    c = (a, v) ∨ c ∈ m := by
  unfold writeCell at h
  split at h
  · exact .inr (List.mem_filter.mp h).1
  · exact (mem_insertCell h).imp_right fun h => (List.mem_filter.mp h).1

theorem insertCell_sorted {m : Memory} (a : Nat) (v : Word) (hs : m.Pairwise fun x y => x.1 < y.1)
    (ha : ∀ c ∈ m, c.1 ≠ a) : (insertCell a v m).Pairwise fun x y => x.1 < y.1 := by
  induction m with
  | nil => simp [insertCell]
  | cons d rest ih =>
    obtain ⟨b, u⟩ := d
    have hd := List.pairwise_cons.mp hs
    by_cases hlt : a < b
    · simp only [insertCell, hlt, if_true, List.pairwise_cons]
      refine ⟨?_, hd⟩
      intro c hc
      rcases List.mem_cons.mp hc with rfl | hc
      · exact hlt
      · exact Nat.lt_trans hlt (hd.1 c hc)
    · simp only [insertCell, hlt, if_false, List.pairwise_cons]
      refine ⟨?_, ih hd.2 fun c hc => ha c (by simp [hc])⟩
      intro c hc
      rcases mem_insertCell hc with rfl | hc
      · have := ha (b, u) (by simp)
        exact Nat.lt_of_le_of_ne (Nat.not_lt.mp hlt) this
      · exact hd.1 c hc

/-- A write to an address of `Addr` keeps the canonical form. -/
theorem writeCell_wf {m : Memory} {a : Nat} (v : Word) (hm : Memory.wf m) (ha : a ≤ Config.addrMax) :
    Memory.wf (writeCell m a v) := by
  have he : (eraseCell a m).Pairwise fun x y => x.1 < y.1 := hm.1.sublist List.filter_sublist
  by_cases hv : v = Config.defaultCell
  · rw [writeCell, if_pos hv]
    exact ⟨he, fun c hc => hm.2 c (List.mem_filter.mp hc).1⟩
  · rw [writeCell, if_neg hv]
    refine ⟨insertCell_sorted a v he (not_mem_eraseCell m a), fun c hc => ?_⟩
    rcases mem_insertCell hc with rfl | hc
    · exact ⟨hv, ha⟩
    · exact hm.2 c (List.mem_filter.mp hc).1

/-! ### The set of existing addresses -/

theorem mem_insertAddr (a x : Nat) (dom : List Nat) : x ∈ insertAddr a dom ↔ x = a ∨ x ∈ dom := by
  induction dom with
  | nil => simp [insertAddr]
  | cons b rest ih =>
    by_cases h1 : a < b
    · simp [insertAddr, h1]
    · by_cases h2 : a = b
      · simp [insertAddr, h2]
      · simp only [insertAddr, h1, h2, if_false, List.mem_cons, ih]
        tauto

/-- Materialising an address twice is materialising it once (R30, R164). -/
theorem insertAddr_idem (a : Nat) (dom : List Nat) : insertAddr a (insertAddr a dom) = insertAddr a dom := by
  induction dom with
  | nil => simp [insertAddr]
  | cons b rest ih =>
    by_cases h1 : a < b
    · simp [insertAddr, h1]
    · by_cases h2 : a = b
      · simp [insertAddr, h2]
      · simp [insertAddr, h1, h2, ih]

/-- Materialising an address of `Addr` keeps the canonical form. -/
theorem insertAddr_wf {dom : List Nat} {a : Nat} (hd : domWf dom) (ha : a ≤ Config.addrMax) :
    domWf (insertAddr a dom) := by
  refine ⟨?_, fun x hx => ?_⟩
  · induction dom with
    | nil => simp [insertAddr]
    | cons b rest ih =>
      have hp := List.pairwise_cons.mp hd.1
      by_cases h1 : a < b
      · simp only [insertAddr, h1, if_true, List.pairwise_cons]
        refine ⟨fun x hx => ?_, hp⟩
        rcases List.mem_cons.mp hx with rfl | hx
        · exact h1
        · exact Nat.lt_trans h1 (hp.1 x hx)
      · by_cases h2 : a = b
        · simpa [insertAddr, h2] using hp
        · simp only [insertAddr, h1, h2, if_false, List.pairwise_cons]
          refine ⟨fun x hx => ?_, ih ⟨hp.2, fun x hx => hd.2 x (by simp [hx])⟩⟩
          rcases (mem_insertAddr a x rest).mp hx with rfl | hx
          · omega
          · exact hp.1 x hx
  · rcases (mem_insertAddr a x dom).mp hx with rfl | hx
    · exact ha
    · exact hd.2 x hx

/-- Reading keeps the canonical forms: memory is as it was, and the address read is added to the domain (R33). -/
theorem memRead_wf {s : State} {a : Nat} (hm : Memory.wf s.mem) (hd : domWf s.memDom) (ha : a ≤ Config.addrMax) :
    Memory.wf (memRead a s).2.mem ∧ domWf (memRead a s).2.memDom :=
  ⟨hm, insertAddr_wf hd ha⟩

/-- Writing keeps the canonical forms (R34). -/
theorem memWrite_wf {s : State} {a : Nat} (v : Word) (hm : Memory.wf s.mem) (hd : domWf s.memDom)
    (ha : a ≤ Config.addrMax) : Memory.wf (memWrite a v s).mem ∧ domWf (memWrite a v s).memDom :=
  ⟨writeCell_wf v hm ha, insertAddr_wf hd ha⟩

/-- The memory of the reset state is in canonical form. -/
theorem reset_memory_wf : Memory.wf State.reset.mem ∧ domWf State.reset.memDom := by
  simp [State.reset, Memory.wf, domWf]

end Sys2Proof.Machine
end

