-- ==== Sys2Proof/Laws/Operands.lean ====
section
/-! SUPPORT. What fetching and resolving a parameter can do: for each shared operation the value it gives, the fault it
raises, and (once) everything it can do. -/

namespace Sys2Proof.Machine

/-! ### Words and ranges -/

theorem word_ge_min (w : Word) : intMin ≤ w.toInt := by
  have := BitVec.le_toInt w
  simpa using this

theorem word_le_max (w : Word) : w.toInt ≤ intMax := by
  have := BitVec.toInt_lt (x := w)
  simp only [intMax]; omega

/-- An exact result that fits is stored without change (R82). -/
theorem toInt_narrow {v : Int} (h : Fits v) : (narrow v).toInt = v := by
  obtain ⟨h1, h2⟩ := h
  simp only [intMin, intMax] at h1 h2
  rw [narrow, BitVec.toInt_ofInt, Int.bmod_eq_of_le] <;> omega

/-- The increment of `IP` below `INT_MAX` is the increment of the integer (R14). -/
theorem toInt_succ {w : Word} (h : w.toInt < intMax) : (w + 1).toInt = w.toInt + 1 := by
  have h1 := word_ge_min w
  have h2 : (1 : Word).toInt = 1 := by decide
  simp only [intMin, intMax] at h h1
  rw [BitVec.toInt_add, h2, Int.bmod_eq_of_le] <;> omega

/-! ### Parts of a step -/

@[simp] theorem bind_ok {α β : Type} (a : α) (s : State) (k : α → State → Res β) : (Res.ok a s).bind k = k a s := rfl
@[simp] theorem bind_raised {α β : Type} (s : State) (k : α → State → Res β) :
    (Res.raised s : Res α).bind k = .raised s := rfl
@[simp] theorem finish_ok {α : Type} (a : α) (s : State) (k : α → State → Outcome) :
    (Res.ok a s).finish k = k a s := rfl
@[simp] theorem finish_raised {α : Type} (s : State) (k : α → State → Outcome) :
    (Res.raised s : Res α).finish k = .next s := rfl
@[simp] theorem check_ok {α : Type} (a : α) (s : State) : Res.check (.ok a) s = .ok a s := rfl
@[simp] theorem check_error {α : Type} (k : FaultKind) (s : State) :
    (Res.check (.error k) s : Res α) = .raised (raise k s) := rfl

theorem checkAddr_of_nonneg {e : Int} (h : 0 ≤ e) : checkAddr e = .ok e.toNat := by
  simp [checkAddr, Int.not_lt.mpr h]

theorem checkAddr_of_neg {e : Int} (h : e < 0) : checkAddr e = .error .negativeAddress := by
  simp [checkAddr, h]

theorem checkAddr_bound {e : Int} {a : Nat} (hf : e ≤ intMax) (h : checkAddr e = .ok a) : a ≤ Config.addrMax := by
  simp only [intMax] at hf
  unfold checkAddr at h
  split at h
  · cases h
  · cases h; simp only [Config.addrMax]; omega

theorem advanceIP_of_lt {s : State} (h : s.ip.toInt < intMax) : advanceIP s = .ok () { s with ip := s.ip + 1 } := by
  simp only [intMax] at h
  simp [advanceIP, intMax, show s.ip.toInt ≠ 9223372036854775807 by omega]

theorem advanceIP_of_max {s : State} (h : s.ip.toInt = intMax) :
    advanceIP s = .raised (raise .arithmeticOverflow s) := by
  simp only [intMax] at h
  simp [advanceIP, intMax, h]

/-! ### The fetch (R55) -/

theorem fetchWord_of_room {s : State} (h : s.hasRoom 1) : fetchWord s = .ok s.nextWord s.fetched := by
  have h2 : s.ip.toInt < intMax := by have := h.2; simp only [intMax] at *; omega
  simp only [fetchWord, checkAddr_of_nonneg h.1, check_ok, bind_ok, memRead]
  rw [advanceIP_of_lt (by exact h2)]
  rfl

theorem fetchWord_of_neg {s : State} (h : s.ip.toInt < 0) : fetchWord s = .raised (raise .negativeAddress s) := by
  simp [fetchWord, checkAddr_of_neg h]

theorem fetchWord_of_max {s : State} (h : s.ip.toInt = intMax) :
    fetchWord s = .raised (raise .arithmeticOverflow
      { s with iw := s.nextWord, memDom := insertAddr s.ip.toInt.toNat s.memDom }) := by
  have h0 : 0 ≤ s.ip.toInt := by rw [h]; decide
  simp only [fetchWord, checkAddr_of_nonneg h0, check_ok, bind_ok, memRead]
  rw [advanceIP_of_max (by exact h)]
  rfl

/-- Everything a fetch can do: fault on a negative `IP`, fault at `INT_MAX`, or give the word at `IP`. -/
theorem fetchWord_cases (s : State) :
    (s.ip.toInt < 0 ∧ fetchWord s = .raised (raise .negativeAddress s)) ∨
    (s.ip.toInt = intMax ∧ fetchWord s = .raised (raise .arithmeticOverflow
      { s with iw := s.nextWord, memDom := insertAddr s.ip.toInt.toNat s.memDom })) ∨
    (s.hasRoom 1 ∧ fetchWord s = .ok s.nextWord s.fetched) := by
  have hm := word_le_max s.ip
  by_cases h0 : s.ip.toInt < 0
  · exact .inl ⟨h0, fetchWord_of_neg h0⟩
  · by_cases h1 : s.ip.toInt = intMax
    · exact .inr (.inl ⟨h1, fetchWord_of_max h1⟩)
    · have hr : s.hasRoom 1 := ⟨by omega, by simp only [intMax] at *; omega⟩
      exact .inr (.inr ⟨hr, fetchWord_of_room hr⟩)

/-! ### Addresses accessed -/

@[simp] theorem touchAll_nil (dom : List Nat) : touchAll [] dom = dom := rfl
@[simp] theorem touchAll_cons (a : Nat) (as dom : List Nat) :
    touchAll (a :: as) dom = touchAll as (insertAddr a dom) := rfl
theorem touchAll_append (as bs dom : List Nat) : touchAll (as ++ bs) dom = touchAll bs (touchAll as dom) := by
  simp [touchAll, List.foldl_append]

theorem mem_touchAll (as : List Nat) (x : Nat) (dom : List Nat) : x ∈ touchAll as dom ↔ x ∈ as ∨ x ∈ dom := by
  induction as generalizing dom with
  | nil => simp
  | cons a as ih => rw [touchAll_cons, ih, mem_insertAddr, List.mem_cons]; tauto

theorem touchAll_wf {as dom : List Nat} (hd : domWf dom) (ha : ∀ a ∈ as, a ≤ Config.addrMax) :
    domWf (touchAll as dom) := by
  induction as generalizing dom with
  | nil => exact hd
  | cons a as ih =>
    exact ih (insertAddr_wf hd (ha a (by simp))) fun x hx => ha x (by simp [hx])

/-! ### Resolving a parameter (R58 to R60) -/

theorem effective_bound {m : Mode} {p rb : Word} {e : Nat} (h : effective m p rb = .ok e) : e ≤ Config.addrMax := by
  cases m with
  | position => exact checkAddr_bound (word_le_max p) h
  | relative =>
    simp only [effective] at h
    split at h
    · next hf => exact checkAddr_bound hf.2 h
    · cases h
  | immediate => cases h
  | unknown k => cases h

theorem cursor_bound {s : State} (k : Nat) (h : s.ip.toInt + k ≤ intMax) : s.cursor k ≤ Config.addrMax := by
  simp only [State.cursor, Config.addrMax, intMax] at *; omega

theorem cursor_zero (s : State) : s.cursor 0 = s.ip.toInt.toNat := by simp [State.cursor]

theorem readParamWord_of_nonneg {s : State} (h : 0 ≤ s.ip.toInt) :
    readParamWord s = .ok (s.rawParam 0) (s.touch (s.cursor 0)) := by
  simp [readParamWord, checkAddr_of_nonneg h, memRead, State.rawParam, cursor_zero]

theorem resolveSource_eq (m : Mode) (s : State) (d : List Nat) :
    resolveSource m (s.rawParam 0) { s with memDom := d } =
      match s.source m 0 with
      | .ok v => .ok v { s with memDom := touchAll ((s.sourceReads m 0).drop 1) d }
      | .error k => .raised (raise k { s with memDom := d }) := by
  cases m with
  | immediate => simp [resolveSource, State.source, State.sourceReads]
  | position | relative | unknown k =>
    all_goals
      simp only [resolveSource, State.source, State.sourceReads]
      cases effective _ (s.rawParam 0) s.rb with
      | ok e => simp [Except.map, memRead, State.touch]
      | error k => simp [Except.map]

theorem sourceReads_eq (s : State) (m : Mode) (k : Nat) :
    s.sourceReads m k = s.cursor k :: (s.sourceReads m k).drop 1 := by
  cases m <;> simp only [State.sourceReads] <;> first | rfl | (split <;> rfl)

/-- A source parameter that resolves, with room to step past its word (R59). -/
theorem readParam_ok {s : State} {m : Mode} {v : Word} (hr : s.hasRoom 1) (hv : s.source m 0 = .ok v) :
    readParam m s = .ok v { s with ip := s.ip + 1, memDom := touchAll (s.sourceReads m 0) s.memDom } := by
  have h2 : s.ip.toInt < intMax := by have := hr.2; simp only [intMax] at *; omega
  have := resolveSource_eq m s (insertAddr (s.cursor 0) s.memDom)
  rw [hv] at this
  simp only [readParam, readParamWord_of_nonneg hr.1, bind_ok, State.touch, this]
  rw [advanceIP_of_lt (by exact h2), sourceReads_eq]
  rfl

/-- A source parameter that does not resolve: its word is read, and `IP` stays on it (R59, D4). -/
theorem readParam_error {s : State} {m : Mode} {k : FaultKind} (h0 : 0 ≤ s.ip.toInt)
    (hv : s.source m 0 = .error k) :
    readParam m s = .raised (raise k { s with memDom := insertAddr (s.cursor 0) s.memDom }) := by
  have := resolveSource_eq m s (insertAddr (s.cursor 0) s.memDom)
  rw [hv] at this
  simp only [readParam, readParamWord_of_nonneg h0, bind_ok, State.touch, this, bind_raised]

/-- A source parameter whose word is the last cell: it resolves, and the advance past it overflows (R14). -/
theorem readParam_max {s : State} {m : Mode} {v : Word} (hm : s.ip.toInt = intMax) (hv : s.source m 0 = .ok v) :
    readParam m s = .raised (raise .arithmeticOverflow
      { s with memDom := touchAll (s.sourceReads m 0) s.memDom }) := by
  have h0 : 0 ≤ s.ip.toInt := by rw [hm]; decide
  have := resolveSource_eq m s (insertAddr (s.cursor 0) s.memDom)
  rw [hv] at this
  simp only [readParam, readParamWord_of_nonneg h0, bind_ok, State.touch, this]
  rw [advanceIP_of_max (by exact hm), sourceReads_eq]
  rfl

theorem readParam_neg {s : State} (m : Mode) (h : s.ip.toInt < 0) :
    readParam m s = .raised (raise .negativeAddress s) := by
  simp [readParam, readParamWord, checkAddr_of_neg h]

/-- A destination parameter that resolves, with room to step past its word (R60). -/
theorem writeParam_ok {s : State} {m : Mode} {e : Nat} (hr : s.hasRoom 1) (he : s.dest m 0 = .ok e) :
    writeParam m s = .ok e { s with ip := s.ip + 1, memDom := insertAddr (s.cursor 0) s.memDom } := by
  have h2 : s.ip.toInt < intMax := by have := hr.2; simp only [intMax] at *; omega
  simp only [State.dest] at he
  simp only [writeParam, readParamWord_of_nonneg hr.1, bind_ok, State.touch, he, check_ok]
  rw [advanceIP_of_lt (by exact h2)]
  rfl

/-- A destination parameter that does not resolve (R60, D4). -/
theorem writeParam_error {s : State} {m : Mode} {k : FaultKind} (h0 : 0 ≤ s.ip.toInt) (he : s.dest m 0 = .error k) :
    writeParam m s = .raised (raise k { s with memDom := insertAddr (s.cursor 0) s.memDom }) := by
  simp only [State.dest] at he
  simp [writeParam, readParamWord_of_nonneg h0, State.touch, he]

theorem writeParam_max {s : State} {m : Mode} {e : Nat} (hm : s.ip.toInt = intMax) (he : s.dest m 0 = .ok e) :
    writeParam m s = .raised (raise .arithmeticOverflow
      { s with memDom := insertAddr (s.cursor 0) s.memDom }) := by
  have h0 : 0 ≤ s.ip.toInt := by rw [hm]; decide
  simp only [State.dest] at he
  simp only [writeParam, readParamWord_of_nonneg h0, bind_ok, State.touch, he, check_ok]
  rw [advanceIP_of_max (by exact hm)]
  rfl

theorem writeParam_neg {s : State} (m : Mode) (h : s.ip.toInt < 0) :
    writeParam m s = .raised (raise .negativeAddress s) := by
  simp [writeParam, readParamWord, checkAddr_of_neg h]

/-! ### A later parameter, seen from the state in which the instruction begins to execute -/

/-- The state after `n` parameters have been resolved without fault: only `IP` and `MemDom` have moved. -/
def State.past (s : State) (n : Nat) (d : List Nat) : State :=
  { s with ip := s.ip + BitVec.ofNat 64 n, memDom := d }

/-- `n` parameters can have been stepped past. -/
abbrev State.CanPass (s : State) (n : Nat) : Prop := n = 0 ∨ s.hasRoom n

theorem past_zero (s : State) (d : List Nat) : s.past 0 d = { s with memDom := d } := by
  simp [State.past]

theorem past_memDom (s : State) : s.past 0 s.memDom = s := by
  simp [State.past]

theorem past_toInt {s : State} {n : Nat} (d : List Nat) (h : s.CanPass n) :
    (s.past n d).ip.toInt = s.ip.toInt + n := by
  rcases h with rfl | ⟨h1, h2⟩
  · simp [State.past]
  · simp only [intMax] at h2
    have hn : (BitVec.ofNat 64 n).toInt = n := by
      rw [BitVec.toInt_ofNat', Int.bmod_eq_of_le] <;> omega
    have hl := word_ge_min s.ip
    simp only [intMin] at hl
    show (s.ip + BitVec.ofNat 64 n).toInt = _
    rw [BitVec.toInt_add, hn, Int.bmod_eq_of_le] <;> omega

theorem past_cursor {s : State} {n : Nat} (d : List Nat) (k : Nat) (h : s.CanPass n) :
    (s.past n d).cursor k = s.cursor (n + k) := by
  simp only [State.cursor, past_toInt d h]; congr 1; omega

theorem past_source {s : State} {n : Nat} (d : List Nat) (m : Mode) (h : s.CanPass n) :
    (s.past n d).source m 0 = s.source m n := by
  simp only [State.source, State.rawParam, past_cursor d 0 h, Nat.add_zero]
  rfl

theorem past_dest {s : State} {n : Nat} (d : List Nat) (m : Mode) (h : s.CanPass n) :
    (s.past n d).dest m 0 = s.dest m n := by
  simp only [State.dest, State.rawParam, past_cursor d 0 h, Nat.add_zero]
  rfl

theorem past_reads {s : State} {n : Nat} (d : List Nat) (m : Mode) (h : s.CanPass n) :
    (s.past n d).sourceReads m 0 = s.sourceReads m n := by
  simp only [State.sourceReads, State.rawParam, past_cursor d 0 h, Nat.add_zero]
  rfl

theorem canPass_of_room {s : State} {n k : Nat} (h : s.hasRoom (n + k)) : s.CanPass n :=
  .inr ⟨h.1, by have := h.2; omega⟩

theorem past_room {s : State} {n k : Nat} (d : List Nat) (h : s.hasRoom (n + k)) : (s.past n d).hasRoom k := by
  have hn : s.CanPass n := canPass_of_room h
  have := h.1
  have := h.2
  exact ⟨by rw [past_toInt d hn]; omega, by rw [past_toInt d hn]; omega⟩

theorem room_of_past {s : State} {n k : Nat} {d : List Nat} (hn : s.CanPass n) (h : (s.past n d).hasRoom k) :
    s.hasRoom (n + k) := by
  have h1 := h.1
  have h2 := h.2
  rw [past_toInt d hn] at h1 h2
  refine ⟨?_, by omega⟩
  rcases hn with rfl | hn
  · omega
  · exact hn.1

theorem past_succ (s : State) (n : Nat) (d d' : List Nat) :
    { s.past n d with ip := (s.past n d).ip + 1, memDom := d' } = s.past (n + 1) d' := by
  simp only [State.past, BitVec.ofNat_add, BitVec.add_assoc]
  rfl

/-- Parameter `n` (counted from 0) as a source, after `n` parameters have been resolved. -/
theorem readParam_past {s : State} {n : Nat} {d : List Nat} {m : Mode} {v : Word} (hr : s.hasRoom (n + 1))
    (hv : s.source m n = .ok v) :
    readParam m (s.past n d) = .ok v (s.past (n + 1) (touchAll (s.sourceReads m n) d)) := by
  have hn : s.CanPass n := canPass_of_room hr
  rw [readParam_ok (past_room d hr) (by rw [past_source d m hn, hv]), past_reads d m hn, past_succ]
  rfl

/-- Parameter `n` (counted from 0) as a source that does not resolve. -/
theorem readParam_past_error {s : State} {n : Nat} {d : List Nat} {m : Mode} {k : FaultKind} (hn : s.CanPass n)
    (h0 : 0 ≤ s.ip.toInt) (hv : s.source m n = .error k) :
    readParam m (s.past n d) = .raised (raise k (s.past n (insertAddr (s.cursor n) d))) := by
  rw [readParam_error (by rw [past_toInt d hn]; omega) (by rw [past_source d m hn, hv]), past_cursor d 0 hn]
  rfl

/-- Parameter `n` (counted from 0) as a destination, after `n` parameters have been resolved. -/
theorem writeParam_past {s : State} {n : Nat} {d : List Nat} {m : Mode} {e : Nat} (hr : s.hasRoom (n + 1))
    (he : s.dest m n = .ok e) :
    writeParam m (s.past n d) = .ok e (s.past (n + 1) (insertAddr (s.cursor n) d)) := by
  have hn : s.CanPass n := canPass_of_room hr
  rw [writeParam_ok (past_room d hr) (by rw [past_dest d m hn, he]), past_cursor d 0 hn, past_succ]
  rfl

/-- Parameter `n` (counted from 0) as a destination that does not resolve. -/
theorem writeParam_past_error {s : State} {n : Nat} {d : List Nat} {m : Mode} {k : FaultKind} (hn : s.CanPass n)
    (h0 : 0 ≤ s.ip.toInt) (he : s.dest m n = .error k) :
    writeParam m (s.past n d) = .raised (raise k (s.past n (insertAddr (s.cursor n) d))) := by
  rw [writeParam_error (by rw [past_toInt d hn]; omega) (by rw [past_dest d m hn, he]), past_cursor d 0 hn]
  rfl

/-! ### Everything a parameter can do -/

/-- All addresses of a list are in `Addr`. -/
def InAddr (as : List Nat) : Prop := ∀ x ∈ as, x ≤ Config.addrMax

theorem inAddr_nil : InAddr [] := fun _ h => nomatch h

theorem inAddr_cons {a : Nat} {as : List Nat} (ha : a ≤ Config.addrMax) (h : InAddr as) : InAddr (a :: as) := by
  intro x hx
  rcases List.mem_cons.mp hx with rfl | hx
  · exact ha
  · exact h x hx

theorem inAddr_append {as bs : List Nat} (ha : InAddr as) (hb : InAddr bs) : InAddr (as ++ bs) := by
  intro x hx
  rcases List.mem_append.mp hx with hx | hx
  · exact ha x hx
  · exact hb x hx

theorem sourceReads_bound {s : State} {m : Mode} {k : Nat} (h : s.ip.toInt + k ≤ intMax) :
    InAddr (s.sourceReads m k) := by
  have hc := cursor_bound k h
  cases m with
  | immediate => exact inAddr_cons hc inAddr_nil
  | position | relative | unknown _ =>
    all_goals
      simp only [State.sourceReads]
      split
      · next e he => exact inAddr_cons hc (inAddr_cons (effective_bound he) inAddr_nil)
      · exact inAddr_cons hc inAddr_nil

theorem readParam_cases (m : Mode) (s : State) :
    (∃ v, s.hasRoom 1 ∧ s.source m 0 = .ok v ∧
      readParam m s = .ok v { s with ip := s.ip + 1, memDom := touchAll (s.sourceReads m 0) s.memDom }) ∨
    (∃ k as, InAddr as ∧ readParam m s = .raised (raise k { s with memDom := touchAll as s.memDom })) := by
  have hm := word_le_max s.ip
  have hb : InAddr [s.cursor 0] := inAddr_cons (cursor_bound 0 (by simpa using hm)) inAddr_nil
  by_cases h0 : s.ip.toInt < 0
  · exact .inr ⟨_, [], inAddr_nil, readParam_neg m h0⟩
  · cases hv : s.source m 0 with
    | error k => exact .inr ⟨k, [s.cursor 0], hb, readParam_error (by omega) hv⟩
    | ok v =>
      have hs := sourceReads_bound (s := s) (m := m) (k := 0) (by simpa using hm)
      by_cases h1 : s.ip.toInt = intMax
      · exact .inr ⟨_, _, hs, readParam_max h1 hv⟩
      · have hr : s.hasRoom 1 := ⟨by omega, by simp only [intMax] at *; omega⟩
        exact .inl ⟨v, hr, rfl, readParam_ok hr hv⟩

theorem writeParam_cases (m : Mode) (s : State) :
    (∃ e, s.hasRoom 1 ∧ s.dest m 0 = .ok e ∧
      writeParam m s = .ok e { s with ip := s.ip + 1, memDom := insertAddr (s.cursor 0) s.memDom }) ∨
    (∃ k as, InAddr as ∧ writeParam m s = .raised (raise k { s with memDom := touchAll as s.memDom })) := by
  have hm := word_le_max s.ip
  have hb : InAddr [s.cursor 0] := inAddr_cons (cursor_bound 0 (by simpa using hm)) inAddr_nil
  by_cases h0 : s.ip.toInt < 0
  · exact .inr ⟨_, [], inAddr_nil, writeParam_neg m h0⟩
  · cases he : s.dest m 0 with
    | error k => exact .inr ⟨k, [s.cursor 0], hb, writeParam_error (by omega) he⟩
    | ok e =>
      by_cases h1 : s.ip.toInt = intMax
      · exact .inr ⟨_, [s.cursor 0], hb, writeParam_max h1 he⟩
      · have hr : s.hasRoom 1 := ⟨by omega, by simp only [intMax] at *; omega⟩
        exact .inl ⟨e, hr, rfl, writeParam_ok hr he⟩

/-- Everything parameter `n` (counted from 0) can do as a source. -/
theorem readParam_past_cases (m : Mode) {s : State} {n : Nat} (d : List Nat) (hn : s.CanPass n) :
    (∃ v, s.hasRoom (n + 1) ∧ s.source m n = .ok v ∧
      readParam m (s.past n d) = .ok v (s.past (n + 1) (touchAll (s.sourceReads m n) d))) ∨
    (∃ k as, InAddr as ∧ readParam m (s.past n d) = .raised (raise k (s.past n (touchAll as d)))) := by
  rcases readParam_cases m (s.past n d) with ⟨v, hr, hv, -⟩ | ⟨k, as, ha, h⟩
  · have hr := room_of_past hn hr
    rw [past_source d m hn] at hv
    exact .inl ⟨v, hr, hv, readParam_past hr hv⟩
  · exact .inr ⟨k, as, ha, h⟩

/-- Everything parameter `n` (counted from 0) can do as a destination. -/
theorem writeParam_past_cases (m : Mode) {s : State} {n : Nat} (d : List Nat) (hn : s.CanPass n) :
    (∃ e, s.hasRoom (n + 1) ∧ s.dest m n = .ok e ∧
      writeParam m (s.past n d) = .ok e (s.past (n + 1) (insertAddr (s.cursor n) d))) ∨
    (∃ k as, InAddr as ∧ writeParam m (s.past n d) = .raised (raise k (s.past n (touchAll as d)))) := by
  rcases writeParam_cases m (s.past n d) with ⟨e, hr, he, -⟩ | ⟨k, as, ha, h⟩
  · have hr := room_of_past hn hr
    rw [past_dest d m hn] at he
    exact .inl ⟨e, hr, he, writeParam_past hr he⟩
  · exact .inr ⟨k, as, ha, h⟩

end Sys2Proof.Machine
end

