-- ==== Sys2Proof/Laws/Exec.lean ====
section
/-! SUPPORT. What the parameters of a whole instruction can do, and from it everything each instruction can do. -/

namespace Sys2Proof.Machine

/-- Two sources that resolve. -/
theorem twoSources_ok {s : State} {m1 m2 : Mode} {a b : Word} (k : Word → Word → State → Outcome)
    (hr : s.hasRoom 2) (ha : s.source m1 0 = .ok a) (hb : s.source m2 1 = .ok b) :
    twoSources m1 m2 s k =
      k a b (s.past 2 (touchAll (s.sourceReads m1 0 ++ s.sourceReads m2 1) s.memDom)) := by
  have h1 := readParam_past (n := 0) (d := s.memDom) ⟨hr.1, by have := hr.2; omega⟩ ha
  rw [past_memDom] at h1
  simp only [twoSources, h1, finish_ok, readParam_past (n := 1) hr hb, touchAll_append]

/-- Three parameters that resolve. -/
theorem threeParams_ok {s : State} {m1 m2 m3 : Mode} {a b : Word} {d : Nat}
    (k : Word → Word → Nat → State → Outcome) (hr : s.hasRoom 3) (ha : s.source m1 0 = .ok a)
    (hb : s.source m2 1 = .ok b) (hd : s.dest m3 2 = .ok d) :
    threeParams m1 m2 m3 s k =
      k a b d (s.past 3 (touchAll (s.sourceReads m1 0 ++ s.sourceReads m2 1 ++ [s.cursor 2]) s.memDom)) := by
  rw [threeParams, twoSources_ok _ ⟨hr.1, by have := hr.2; omega⟩ ha hb]
  simp only [writeParam_past (n := 2) hr hd, finish_ok, touchAll_append, touchAll_cons, touchAll_nil]

/-- Everything two sources can do: resolve, or raise a fault after `n` of them have. -/
theorem twoSources_cases (m1 m2 : Mode) (s : State) (k : Word → Word → State → Outcome) :
    (∃ a b as, InAddr as ∧ s.hasRoom 2 ∧ s.source m1 0 = .ok a ∧ s.source m2 1 = .ok b ∧
      twoSources m1 m2 s k = k a b (s.past 2 (touchAll as s.memDom))) ∨
    (∃ f n as, n ≤ 1 ∧ s.CanPass n ∧ InAddr as ∧
      twoSources m1 m2 s k = .next (raise f (s.past n (touchAll as s.memDom)))) := by
  have h1 := readParam_past_cases m1 (s := s) (n := 0) s.memDom (.inl rfl)
  rw [past_memDom] at h1
  rcases h1 with ⟨a, hr1, ha, h1⟩ | ⟨f, as, hb, h1⟩
  · have hs1 : InAddr (s.sourceReads m1 0) := sourceReads_bound (by have := hr1.2; omega)
    rcases readParam_past_cases m2 (n := 1) (touchAll (s.sourceReads m1 0) s.memDom) (.inr hr1) with
      ⟨b, hr2, hb, h2⟩ | ⟨f, as, hbd, h2⟩
    · have hs2 : InAddr (s.sourceReads m2 1) := sourceReads_bound (by have := hr2.2; omega)
      exact .inl ⟨a, b, _, inAddr_append hs1 hs2, hr2, ha, hb, twoSources_ok k hr2 ha hb⟩
    · refine .inr ⟨f, 1, s.sourceReads m1 0 ++ as, by omega, .inr hr1, ?_, ?_⟩
      · intro x hx
        rcases List.mem_append.mp hx with hx | hx
        · exact hs1 x hx
        · exact hbd x hx
      · simp only [twoSources, h1, finish_ok, h2, finish_raised, touchAll_append]
  · exact .inr ⟨f, 0, as, by omega, .inl rfl, hb, by simp only [twoSources, h1, finish_raised]⟩

/-- Everything three parameters can do. -/
theorem threeParams_cases (m1 m2 m3 : Mode) (s : State) (k : Word → Word → Nat → State → Outcome) :
    (∃ a b d as, InAddr as ∧ d ≤ Config.addrMax ∧ s.hasRoom 3 ∧ s.source m1 0 = .ok a ∧ s.source m2 1 = .ok b ∧
      s.dest m3 2 = .ok d ∧ threeParams m1 m2 m3 s k = k a b d (s.past 3 (touchAll as s.memDom))) ∨
    (∃ f n as, n ≤ 2 ∧ s.CanPass n ∧ InAddr as ∧
      threeParams m1 m2 m3 s k = .next (raise f (s.past n (touchAll as s.memDom)))) := by
  rcases twoSources_cases m1 m2 s (fun a b s2 => (writeParam m3 s2).finish fun d s3 => k a b d s3) with
    ⟨a, b, as, hb1, hr, ha, hb, h⟩ | ⟨f, n, as, hn, hp, hb, h⟩
  · rcases writeParam_past_cases m3 (touchAll as s.memDom) (.inr hr) with
      ⟨d, hr3, hd, hw⟩ | ⟨f, bs, hbs, hw⟩
    · have hc : s.cursor 2 ≤ Config.addrMax := cursor_bound 2 (by have := hr3.2; omega)
      refine .inl ⟨a, b, d, as ++ [s.cursor 2], inAddr_append hb1 (inAddr_cons hc inAddr_nil), effective_bound hd,
        hr3, ha, hb, hd, ?_⟩
      rw [threeParams, h]
      simp only [hw, finish_ok, touchAll_append, touchAll_cons, touchAll_nil]
    · refine .inr ⟨f, 2, as ++ bs, by omega, .inr hr, inAddr_append hb1 hbs, ?_⟩
      rw [threeParams, h]
      simp only [hw, finish_raised, touchAll_append]
  · exact .inr ⟨f, n, as, by omega, hp, hb, by rw [threeParams, h]⟩

/-- What an instruction of format F3 can do: store one value at its destination, or raise a fault. -/
theorem exec_f3_cases {i : Instr} {m1 m2 m3 : Mode} (s : State)
    (hi : i ∈ [Instr.add m1 m2 m3, .mul m1 m2 m3, .lt m1 m2 m3, .eq m1 m2 m3]) :
    (∃ d v as, InAddr as ∧ d ≤ Config.addrMax ∧ s.hasRoom 3 ∧ s.dest m3 2 = .ok d ∧
      exec i s = .next (memWrite d v (s.past 3 (touchAll as s.memDom)))) ∨
    (∃ f n as, n ≤ 3 ∧ s.CanPass n ∧ InAddr as ∧
      exec i s = .next (raise f (s.past n (touchAll as s.memDom)))) := by
  have main : ∀ k : Word → Word → Nat → State → Outcome,
      (∀ a b d t, (∃ v, k a b d t = .next (memWrite d v t)) ∨ ∃ f, k a b d t = .next (raise f t)) →
      (∃ d v as, InAddr as ∧ d ≤ Config.addrMax ∧ s.hasRoom 3 ∧ s.dest m3 2 = .ok d ∧
        threeParams m1 m2 m3 s k = .next (memWrite d v (s.past 3 (touchAll as s.memDom)))) ∨
      (∃ f n as, n ≤ 3 ∧ s.CanPass n ∧ InAddr as ∧
        threeParams m1 m2 m3 s k = .next (raise f (s.past n (touchAll as s.memDom)))) := by
    intro k hk
    rcases threeParams_cases m1 m2 m3 s k with ⟨a, b, d, as, hb, hd, hr, -, -, hdst, h⟩ | ⟨f, n, as, hn, hp, hb, h⟩
    · rcases hk a b d (s.past 3 (touchAll as s.memDom)) with ⟨v, hv⟩ | ⟨f, hf⟩
      · exact .inl ⟨d, v, as, hb, hd, hr, hdst, by rw [h, hv]⟩
      · exact .inr ⟨f, 3, as, by omega, .inr hr, hb, by rw [h, hf]⟩
    · exact .inr ⟨f, n, as, by omega, hp, hb, h⟩
  simp only [List.mem_cons, List.not_mem_nil, or_false] at hi
  rcases hi with rfl | rfl | rfl | rfl
  · refine main _ fun a b d t => ?_
    unfold storeExact; split
    · exact .inl ⟨_, rfl⟩
    · exact .inr ⟨_, rfl⟩
  · refine main _ fun a b d t => ?_
    unfold storeExact; split
    · exact .inl ⟨_, rfl⟩
    · exact .inr ⟨_, rfl⟩
  · exact main _ fun a b d t => .inl ⟨_, rfl⟩
  · exact main _ fun a b d t => .inl ⟨_, rfl⟩

/-- What a jump can do: move `IP` somewhere, or raise a fault. -/
theorem exec_jump_cases {i : Instr} {m1 m2 : Mode} (s : State) (hi : i ∈ [Instr.jt m1 m2, .jf m1 m2]) :
    (∃ target as, InAddr as ∧ exec i s = .next { s with ip := target, memDom := touchAll as s.memDom }) ∨
    (∃ f n as, n ≤ 1 ∧ s.CanPass n ∧ InAddr as ∧
      exec i s = .next (raise f (s.past n (touchAll as s.memDom)))) := by
  have main : ∀ k : Word → Word → State → Outcome,
      (∀ a b t, ∃ target, k a b t = .next { t with ip := target }) →
      (∃ target as, InAddr as ∧
        twoSources m1 m2 s k = .next { s with ip := target, memDom := touchAll as s.memDom }) ∨
      (∃ f n as, n ≤ 1 ∧ s.CanPass n ∧ InAddr as ∧
        twoSources m1 m2 s k = .next (raise f (s.past n (touchAll as s.memDom)))) := by
    intro k hk
    rcases twoSources_cases m1 m2 s k with ⟨a, b, as, hb, hr, -, -, h⟩ | h
    · obtain ⟨target, ht⟩ := hk a b (s.past 2 (touchAll as s.memDom))
      exact .inl ⟨target, as, hb, by rw [h, ht]; rfl⟩
    · exact .inr h
  simp only [List.mem_cons, List.not_mem_nil, or_false] at hi
  rcases hi with rfl | rfl
  · refine main _ fun a b t => ?_
    cases isNonzero a
    · exact ⟨t.ip, rfl⟩
    · exact ⟨b, rfl⟩
  · refine main _ fun a b t => ?_
    cases isNonzero a
    · exact ⟨b, rfl⟩
    · exact ⟨t.ip, rfl⟩

/-- What `OUT` can do. -/
theorem exec_out_cases (m : Mode) (s : State) :
    (∃ v as, InAddr as ∧ s.hasRoom 1 ∧
      exec (.out m) s = .next (outPush v (s.past 1 (touchAll as s.memDom)))) ∨
    (∃ f as, InAddr as ∧ exec (.out m) s = .next (raise f (s.past 0 (touchAll as s.memDom)))) := by
  have h := readParam_past_cases m (s := s) (n := 0) s.memDom (.inl rfl)
  rw [past_memDom] at h
  rcases h with ⟨v, hr, -, h⟩ | ⟨f, as, hb, h⟩
  · exact .inl ⟨v, _, sourceReads_bound (s := s) (k := 0) (m := m) (by have := hr.2; omega), hr,
      by simp only [exec, execOut, h, finish_ok]⟩
  · exact .inr ⟨f, as, hb, by simp only [exec, execOut, h, finish_raised]⟩

/-- What `ARB` can do. -/
theorem exec_arb_cases (m : Mode) (s : State) :
    (∃ v as, InAddr as ∧ s.hasRoom 1 ∧
      exec (.arb m) s = .next { s.past 1 (touchAll as s.memDom) with rb := v }) ∨
    (∃ f n as, n ≤ 1 ∧ s.CanPass n ∧ InAddr as ∧
      exec (.arb m) s = .next (raise f (s.past n (touchAll as s.memDom)))) := by
  have h := readParam_past_cases m (s := s) (n := 0) s.memDom (.inl rfl)
  rw [past_memDom] at h
  rcases h with ⟨v, hr, -, h⟩ | ⟨f, as, hb, h⟩
  · have hs : InAddr (s.sourceReads m 0) := sourceReads_bound (by have := hr.2; omega)
    by_cases hf : Fits (s.rb.toInt + v.toInt)
    · exact .inl ⟨narrow (s.rb.toInt + v.toInt), _, hs, hr, by
        simp only [exec, execArb, h, finish_ok]; unfold addToBase; exact if_pos hf⟩
    · exact .inr ⟨.arithmeticOverflow, 1, _, by omega, .inr hr, hs, by
        simp only [exec, execArb, h, finish_ok]; unfold addToBase; exact if_neg hf⟩
  · exact .inr ⟨f, 0, as, by omega, .inl rfl, hb, by simp only [exec, execArb, h, finish_raised]⟩

/-- What `IN` can do: suspend with the channel empty, store the oldest entry, or raise a fault. -/
theorem exec_in_cases (m : Mode) (s : State) :
    (s.input = [] ∧ exec (.inp m) s = .next (suspend s)) ∨
    (∃ v rest d as, s.input = v :: rest ∧ InAddr as ∧ d ≤ Config.addrMax ∧ s.hasRoom 1 ∧ s.dest m 0 = .ok d ∧
      exec (.inp m) s = .next (memWrite d v { s.past 1 (touchAll as s.memDom) with input := rest })) ∨
    (∃ v rest f as, s.input = v :: rest ∧ InAddr as ∧
      exec (.inp m) s = .next (raise f (s.past 0 (touchAll as s.memDom)))) := by
  cases hin : s.input with
  | nil => exact .inl ⟨rfl, by simp [exec, execIn, inEmpty, hin]⟩
  | cons v rest =>
    have h := writeParam_past_cases m (s := s) (n := 0) s.memDom (.inl rfl)
    rw [past_memDom] at h
    rcases h with ⟨d, hr, hd, h⟩ | ⟨f, as, hb, h⟩
    · have hc : s.cursor 0 ≤ Config.addrMax := cursor_bound 0 (by have := hr.2; omega)
      refine .inr (.inl ⟨v, rest, d, [s.cursor 0], rfl, inAddr_cons hc inAddr_nil, effective_bound hd, hr, hd, ?_⟩)
      simp [exec, execIn, inEmpty, hin, h, inPop, State.past]
    · exact .inr (.inr ⟨v, rest, f, as, rfl, hb, by simp [exec, execIn, inEmpty, hin, h]⟩)

end Sys2Proof.Machine
end

