-- ==== Sys2Proof/Laws/Loader.lean ====
section
/-! SUPPORT. The parts of the text loader, each said once: digit strings, trimming, values that fit. -/

namespace Sys2Proof.Machine

/-- A decimal digit has its own value. -/
theorem digitValue_digitChar (d : Fin 10) : digitValue d.val.digitChar = some d.val := by revert d; decide

/-- Digits continue the value read so far. -/
theorem digitsFrom_digits (ds : List (Fin 10)) : ∀ n,
    digitsFrom n (ds.map fun d => d.val.digitChar) = some (ds.foldl (fun v d => 10 * v + d.val) n) := by
  induction ds with
  | nil => intro n; rfl
  | cons d ds ih => intro n; simp [digitsFrom, digitValue_digitChar, ih]

/-- One or more digits have the value of their numeral. -/
theorem digitsValue_digits {ds : List (Fin 10)} (h : ds ≠ []) :
    digitsValue (ds.map fun d => d.val.digitChar) = some (ds.foldl (fun v d => 10 * v + d.val) 0) := by
  cases ds with
  | nil => exact absurd rfl h
  | cons d ds => exact digitsFrom_digits (d :: ds) 0

/-- A token without white space is left as it is. -/
theorem trimToken_of_no_space {cs : List Char} (h : ∀ c ∈ cs, isSpace c = false) : trimToken cs = cs := by
  have key : ∀ l : List Char, (∀ c ∈ l, isSpace c = false) → l.dropWhile isSpace = l := by
    intro l hl
    cases l with
    | nil => rfl
    | cons c l => simp [List.dropWhile, hl c (by simp)]
  rw [trimToken, key cs h, key cs.reverse (by simpa using h), List.reverse_reverse]

/-- Only white space is taken from a token. -/
theorem mem_trimToken {cs : List Char} {c : Char} (h : c ∈ cs) (hc : isSpace c = false) : c ∈ trimToken cs := by
  have key : ∀ l : List Char, c ∈ l → c ∈ l.dropWhile isSpace := by
    intro l hl
    induction l with
    | nil => cases hl
    | cons a l ih =>
      simp only [List.dropWhile]
      split
      · next ha =>
        rcases List.mem_cons.1 hl with rfl | hl
        · rw [hc] at ha; cases ha
        · exact ih hl
      · exact hl
  simp only [trimToken, List.mem_reverse]
  exact key _ (List.mem_reverse.2 (key cs h))

/-- A character that is no digit ends the reading without a value. -/
theorem digitsFrom_none {c : Char} (hc : digitValue c = none) : ∀ (cs : List Char) n, c ∈ cs → digitsFrom n cs = none := by
  intro cs
  induction cs with
  | nil => intro n h; cases h
  | cons a cs ih =>
    intro n h
    rcases List.mem_cons.1 h with rfl | h
    · simp [digitsFrom, hc]
    · cases hd : digitValue a <;> simp [digitsFrom, hd, ih _ h]

/-- A string with a character that is no digit has no value. -/
theorem digitsValue_none {c : Char} {cs : List Char} (hc : digitValue c = none) (h : c ∈ cs) : digitsValue cs = none := by
  cases cs with
  | nil => cases h
  | cons a cs => exact digitsFrom_none hc _ _ h

/-- A value that fits is the token's. -/
theorem tokenValue_of_fits {v : Int} (h : Fits v) : ∃ w : Word, w.toInt = v ∧ tokenValue v = some w :=
  ⟨narrow v, toInt_narrow h, by simp [tokenValue, h]⟩

end Sys2Proof.Machine
end

