-- ==== Sys2Proof/Laws/PerInstr.lean ====
section
/-! SUPPORT. Facts about every instruction as syntax, one lemma per constructor: its numeral has five decimal digits at
most, ends in its opcode, and carries one mode per parameter of its format. -/

namespace Sys2Proof.Laws.Encoding

theorem digit_le_nine (m : Mode) : m.digit ≤ 9 := by
  cases m with
  | unknown k => simp only [Mode.digit]; omega
  | _ => decide

/-- The numeral of R51 for one instruction: five digits, the last two of which are the opcode (R62), and as many modes
as the format of R53 has parameters. -/
def Statement (i : Instr) : Prop :=
  i.numeral < 100000 ∧ i.numeral % 100 = i.opcode ∧ i.modes.length = i.format.paths.length

theorem three_modes (m1 m2 m3 : Mode) : modesNumeral [m1, m2, m3] < 1000 := by
  have h1 := digit_le_nine m1
  have h2 := digit_le_nine m2
  have h3 := digit_le_nine m3
  simp only [modesNumeral]; omega

theorem two_modes (m1 m2 : Mode) : modesNumeral [m1, m2] < 1000 := by
  have h1 := digit_le_nine m1
  have h2 := digit_le_nine m2
  simp only [modesNumeral]; omega

theorem one_mode (m1 : Mode) : modesNumeral [m1] < 1000 := by
  have h1 := digit_le_nine m1
  simp only [modesNumeral]; omega

/-- A numeral built from an opcode and at most three modes. -/
theorem of_parts (i : Instr) (ho : i.opcode < 100) (hm : modesNumeral i.modes < 1000)
    (hl : i.modes.length = i.format.paths.length) : Statement i := by
  refine ⟨?_, ?_, hl⟩ <;> simp only [Instr.numeral] <;> omega

theorem add (m1 m2 m3 : Mode) : Statement (.add m1 m2 m3) := of_parts _ (by simp [Instr.opcode]) (three_modes m1 m2 m3) rfl
theorem mul (m1 m2 m3 : Mode) : Statement (.mul m1 m2 m3) := of_parts _ (by simp [Instr.opcode]) (three_modes m1 m2 m3) rfl
theorem inp (m1 : Mode) : Statement (.inp m1) := of_parts _ (by simp [Instr.opcode]) (one_mode m1) rfl
theorem out (m1 : Mode) : Statement (.out m1) := of_parts _ (by simp [Instr.opcode]) (one_mode m1) rfl
theorem jt (m1 m2 : Mode) : Statement (.jt m1 m2) := of_parts _ (by simp [Instr.opcode]) (two_modes m1 m2) rfl
theorem jf (m1 m2 : Mode) : Statement (.jf m1 m2) := of_parts _ (by simp [Instr.opcode]) (two_modes m1 m2) rfl
theorem lt (m1 m2 m3 : Mode) : Statement (.lt m1 m2 m3) := of_parts _ (by simp [Instr.opcode]) (three_modes m1 m2 m3) rfl
theorem eq (m1 m2 m3 : Mode) : Statement (.eq m1 m2 m3) := of_parts _ (by simp [Instr.opcode]) (three_modes m1 m2 m3) rfl
theorem arb (m1 : Mode) : Statement (.arb m1) := of_parts _ (by simp [Instr.opcode]) (one_mode m1) rfl
theorem hlt : Statement .hlt := of_parts _ (by decide) (by decide) rfl

end Sys2Proof.Laws.Encoding
end

