-- ==== Sys2Proof/Laws/Step.lean ====
section
/-! SUPPORT. Everything a step can do, said once: the inversion of `exec` over all instructions and of `step`. -/

namespace Sys2Proof.Machine

/-- Every next state an instruction can give: a fault that moved only `IP` and `MemDom`, or the instruction's own
effect. -/
theorem exec_cases {i : Instr} {s t : State} (h : exec i s = .next t) :
    (∃ f n as, n ≤ 3 ∧ s.CanPass n ∧ InAddr as ∧ t = raise f (s.past n (touchAll as s.memDom))) ∨
    (∃ m1 m2 m3 d v as, i ∈ [Instr.add m1 m2 m3, .mul m1 m2 m3, .lt m1 m2 m3, .eq m1 m2 m3] ∧ InAddr as ∧
      d ≤ Config.addrMax ∧ t = memWrite d v (s.past 3 (touchAll as s.memDom))) ∨
    (∃ m1 m2 target as, i ∈ [Instr.jt m1 m2, .jf m1 m2] ∧ InAddr as ∧
      t = { s with ip := target, memDom := touchAll as s.memDom }) ∨
    (∃ m v as, i = .out m ∧ InAddr as ∧ t = outPush v (s.past 1 (touchAll as s.memDom))) ∨
    (∃ m v as, i = .arb m ∧ InAddr as ∧ t = { s.past 1 (touchAll as s.memDom) with rb := v }) ∨
    (∃ m v rest d as, i = .inp m ∧ s.input = v :: rest ∧ InAddr as ∧ d ≤ Config.addrMax ∧
      t = memWrite d v { s.past 1 (touchAll as s.memDom) with input := rest }) ∨
    (∃ m, i = .inp m ∧ s.input = [] ∧ t = suspend s) ∨
    (i = .hlt ∧ t = halt s) := by
  have f3 : ∀ m1 m2 m3, i ∈ [Instr.add m1 m2 m3, .mul m1 m2 m3, .lt m1 m2 m3, .eq m1 m2 m3] →
      (∃ f n as, n ≤ 3 ∧ s.CanPass n ∧ InAddr as ∧ t = raise f (s.past n (touchAll as s.memDom))) ∨
      (∃ m1 m2 m3 d v as, i ∈ [Instr.add m1 m2 m3, .mul m1 m2 m3, .lt m1 m2 m3, .eq m1 m2 m3] ∧ InAddr as ∧
        d ≤ Config.addrMax ∧ t = memWrite d v (s.past 3 (touchAll as s.memDom))) := by
    intro m1 m2 m3 hi
    rcases exec_f3_cases s hi with ⟨d, v, as, hb, hd, -, -, e⟩ | ⟨f, n, as, hn, hp, hb, e⟩
    · rw [e] at h; cases h
      exact .inr ⟨m1, m2, m3, d, v, as, hi, hb, hd, rfl⟩
    · rw [e] at h; cases h
      exact .inl ⟨f, n, as, hn, hp, hb, rfl⟩
  have jump : ∀ m1 m2, i ∈ [Instr.jt m1 m2, .jf m1 m2] →
      (∃ f n as, n ≤ 3 ∧ s.CanPass n ∧ InAddr as ∧ t = raise f (s.past n (touchAll as s.memDom))) ∨
      (∃ m1 m2 target as, i ∈ [Instr.jt m1 m2, .jf m1 m2] ∧ InAddr as ∧
        t = { s with ip := target, memDom := touchAll as s.memDom }) := by
    intro m1 m2 hi
    rcases exec_jump_cases s hi with ⟨target, as, hb, e⟩ | ⟨f, n, as, hn, hp, hb, e⟩
    · rw [e] at h; cases h
      exact .inr ⟨m1, m2, target, as, hi, hb, rfl⟩
    · rw [e] at h; cases h
      exact .inl ⟨f, n, as, by omega, hp, hb, rfl⟩
  cases i with
  | add m1 m2 m3 | mul m1 m2 m3 | lt m1 m2 m3 | eq m1 m2 m3 =>
    all_goals exact (f3 m1 m2 m3 (by simp)).imp id fun c => .inl c
  | jt m1 m2 | jf m1 m2 =>
    all_goals exact (jump m1 m2 (by simp)).imp id fun c => .inr (.inl c)
  | out m =>
    rcases exec_out_cases m s with ⟨v, as, hb, -, e⟩ | ⟨f, as, hb, e⟩
    · rw [e] at h; cases h
      exact .inr (.inr (.inr (.inl ⟨m, v, as, rfl, hb, rfl⟩)))
    · rw [e] at h; cases h
      exact .inl ⟨f, 0, as, by omega, .inl rfl, hb, rfl⟩
  | arb m =>
    rcases exec_arb_cases m s with ⟨v, as, hb, -, e⟩ | ⟨f, n, as, hn, hp, hb, e⟩
    · rw [e] at h; cases h
      exact .inr (.inr (.inr (.inr (.inl ⟨m, v, as, rfl, hb, rfl⟩))))
    · rw [e] at h; cases h
      exact .inl ⟨f, n, as, by omega, hp, hb, rfl⟩
  | inp m =>
    rcases exec_in_cases m s with ⟨hi, e⟩ | ⟨v, rest, d, as, hi, hb, hd, -, -, e⟩ | ⟨v, rest, f, as, hi, hb, e⟩
    · rw [e] at h; cases h
      exact .inr (.inr (.inr (.inr (.inr (.inr (.inl ⟨m, rfl, hi, rfl⟩))))))
    · rw [e] at h; cases h
      exact .inr (.inr (.inr (.inr (.inr (.inl ⟨m, v, rest, d, as, rfl, hi, hb, hd, rfl⟩)))))
    · rw [e] at h; cases h
      exact .inl ⟨f, 0, as, by omega, .inl rfl, hb, rfl⟩
  | hlt =>
    cases h
    exact .inr (.inr (.inr (.inr (.inr (.inr (.inr ⟨rfl, rfl⟩))))))

/-- No instruction stops the machine in the model: every meaning answers a next state. -/
theorem exec_answers_next (i : Instr) (s : State) : ∃ t, exec i s = .next t := by
  have f3 : ∀ m1 m2 m3, i ∈ [Instr.add m1 m2 m3, .mul m1 m2 m3, .lt m1 m2 m3, .eq m1 m2 m3] →
      ∃ t, exec i s = .next t := by
    intro m1 m2 m3 hi
    rcases exec_f3_cases s hi with ⟨_, _, _, -, -, -, -, e⟩ | ⟨_, _, _, -, -, -, e⟩ <;> exact ⟨_, e⟩
  have jump : ∀ m1 m2, i ∈ [Instr.jt m1 m2, .jf m1 m2] → ∃ t, exec i s = .next t := by
    intro m1 m2 hi
    rcases exec_jump_cases s hi with ⟨_, _, -, e⟩ | ⟨_, _, _, -, -, -, e⟩ <;> exact ⟨_, e⟩
  cases i with
  | add m1 m2 m3 | mul m1 m2 m3 | lt m1 m2 m3 | eq m1 m2 m3 => all_goals exact f3 m1 m2 m3 (by simp)
  | jt m1 m2 | jf m1 m2 => all_goals exact jump m1 m2 (by simp)
  | out m => rcases exec_out_cases m s with ⟨_, _, -, -, e⟩ | ⟨_, _, -, e⟩ <;> exact ⟨_, e⟩
  | arb m => rcases exec_arb_cases m s with ⟨_, _, -, -, e⟩ | ⟨_, _, _, -, -, -, e⟩ <;> exact ⟨_, e⟩
  | inp m => rcases exec_in_cases m s with ⟨-, e⟩ | ⟨_, _, _, _, -, -, -, -, -, e⟩ | ⟨_, _, _, _, -, -, e⟩ <;> exact ⟨_, e⟩
  | hlt => exact ⟨_, rfl⟩

/-- The state in which a run begins (R124). -/
abbrev State.running (s : State) : State := { s with status := .runnable }

/-- Where a run can begin, a step is a step of the running machine. -/
theorem step_of_live {s : State} (h : s.Live) : step s = runningStep s.running := by
  rcases h with h | h <;> simp [step, enterRun, h]

theorem enterRun_of_live {s : State} (h : s.Live) : enterRun s = .ok s.running := by
  rcases h with h | h <;> simp [enterRun, h]

theorem runningStep_of_decoded {s : State} {i : Instr} (hr : s.hasRoom 1) (hd : decode s.nextWord = .ok i) :
    runningStep s = exec i s.fetched := by
  simp only [runningStep, fetchWord_of_room hr, finish_ok, hd]

theorem runningStep_of_undecoded {s : State} {e : DecodeError} (hr : s.hasRoom 1)
    (hd : decode s.nextWord = .error e) : runningStep s = .next (raise .unknownOpcode s.fetched) := by
  simp only [runningStep, fetchWord_of_room hr, finish_ok, hd, unknownOpcode]

/-- Everything a step of a running machine can do. -/
theorem runningStep_cases (s : State) :
    (s.ip.toInt < 0 ∧ runningStep s = .next (raise .negativeAddress s)) ∨
    (s.ip.toInt = intMax ∧ runningStep s = .next (raise .arithmeticOverflow
      { s with iw := s.nextWord, memDom := insertAddr s.ip.toInt.toNat s.memDom })) ∨
    (s.hasRoom 1 ∧ (∃ e, decode s.nextWord = .error e) ∧
      runningStep s = .next (raise .unknownOpcode s.fetched)) ∨
    (s.hasRoom 1 ∧ ∃ i, decode s.nextWord = .ok i ∧ runningStep s = exec i s.fetched) := by
  rcases fetchWord_cases s with ⟨h, e⟩ | ⟨h, e⟩ | ⟨hr, -⟩
  · exact .inl ⟨h, by rw [runningStep, e]; rfl⟩
  · exact .inr (.inl ⟨h, by rw [runningStep, e]; rfl⟩)
  · cases hd : decode s.nextWord with
    | error e => exact .inr (.inr (.inl ⟨hr, ⟨e, rfl⟩, runningStep_of_undecoded hr hd⟩))
    | ok i => exact .inr (.inr (.inr ⟨hr, i, rfl, runningStep_of_decoded hr hd⟩))

/-- A step that answers a next state was taken by a machine that could run. -/
theorem live_of_step {s t : State} (h : step s = .next t) : s.Live ∧ runningStep s.running = .next t := by
  cases hs : s.status with
  | runnable =>
    have hl : s.Live := .inl hs
    exact ⟨hl, by rw [← step_of_live hl]; exact h⟩
  | awaitingInput =>
    have hl : s.Live := .inr hs
    exact ⟨hl, by rw [← step_of_live hl]; exact h⟩
  | terminated => simp [step, enterRun, hs] at h
  | error => simp [step, enterRun, hs] at h

/-- One step of a run of any machine behind Host/Core.lean. -/
theorem run_of_step (M : Host.Core) (k : Nat) {s t : M.State} (h : M.step s = .next t) :
    M.run (k + 1) s = M.run k t := by
  simp only [Host.Core.run, h]

/-- A step of the machine behind Host/Core.lean is a step. -/
theorem core_run_of_step {s t : State} (k : Nat) (h : step s = .next t) :
    Host.Core.run Sys2Proof.core (k + 1) s = Host.Core.run Sys2Proof.core k t :=
  run_of_step Sys2Proof.core k h

/-- A step of a running machine always answers a next state. -/
theorem runningStep_answers_next (s : State) : ∃ t, runningStep s = .next t := by
  rcases runningStep_cases s with ⟨-, e⟩ | ⟨-, e⟩ | ⟨-, -, e⟩ | ⟨-, i, -, e⟩
  · exact ⟨_, e⟩
  · exact ⟨_, e⟩
  · exact ⟨_, e⟩
  · rw [e]; exact exec_answers_next i _

/-- A step of a `Runnable` machine is `Step()`. -/
theorem step_of_runnable {s : State} (h : s.status = .runnable) : step s = runningStep s := by
  simp only [step, enterRun, h]; congr 1; cases s; cases h; rfl

/-- Where a run can begin, it ends where that of the running machine does. -/
theorem stopsAfter_running {s t : State} {k : Nat} (h : s.Live) : s.running.StopsAfter k t ↔ s.StopsAfter k t := by
  have key : ∀ j, 1 ≤ j → Host.Core.run Sys2Proof.core j s.running = Host.Core.run Sys2Proof.core j s := by
    intro j hj
    obtain ⟨j, rfl⟩ : ∃ i, j = i + 1 := ⟨j - 1, by omega⟩
    obtain ⟨u, hu⟩ := runningStep_answers_next s.running
    exact (core_run_of_step j ((step_of_live (s := s.running) (.inl rfl)).trans hu)).trans
      (core_run_of_step j ((step_of_live h).trans hu)).symm
  constructor <;> rintro ⟨h1, h2, h3, h4⟩
  · exact ⟨h1, by rw [← key k h1]; exact h2, h3, fun j a b u e => h4 j a b u (by rw [key j a]; exact e)⟩
  · exact ⟨h1, by rw [key k h1]; exact h2, h3, fun j a b u e => h4 j a b u (by rw [← key j a]; exact e)⟩

/-- A machine that takes a step stops there, or stops where the machine after the step does. -/
theorem stopsAfter_step {s u t : State} {k : Nat} (h : step s = .next u) :
    s.StopsAfter (k + 1) t ↔ (k = 0 ∧ t = u ∧ u.status ≠ .runnable) ∨ (u.status = .runnable ∧ u.StopsAfter k t) := by
  have hr := fun j => core_run_of_step j h
  constructor
  · rintro ⟨-, h2, h3, h4⟩
    rw [hr] at h2
    cases k with
    | zero => left; cases h2; exact ⟨rfl, rfl, h3⟩
    | succ k =>
      right
      have hu : u.status = .runnable := h4 1 (by omega) (by omega) u (by rw [hr]; rfl)
      exact ⟨hu, by omega, h2, h3, fun j a b v e => h4 (j + 1) (by omega) (by omega) v (by rw [hr]; exact e)⟩
  · rintro (⟨rfl, rfl, h3⟩ | ⟨hu, h1, h2, h3, h4⟩)
    · exact ⟨by omega, hr 0, h3, fun j a b => absurd b (by omega)⟩
    · refine ⟨by omega, by rw [hr]; exact h2, h3, fun j a b v e => ?_⟩
      obtain ⟨j, rfl⟩ : ∃ i, j = i + 1 := ⟨j - 1, by omega⟩
      rw [hr] at e
      cases j with
      | zero => cases e; exact hu
      | succ j => exact h4 (j + 1) (by omega) (by omega) v e

/-- A step that ends in `Error` has latched a fault kind. -/
theorem fault_of_step {s t : State} (h : step s = .next t) (he : t.status = .error) : t.fault ≠ none := by
  obtain ⟨-, h⟩ := live_of_step h
  rcases runningStep_cases s.running with ⟨-, e⟩ | ⟨-, e⟩ | ⟨-, -, e⟩ | ⟨-, i, -, e⟩
  · rw [e] at h; cases h; simp [raise]
  · rw [e] at h; cases h; simp [raise]
  · rw [e] at h; cases h; simp [raise]
  · rw [e] at h
    rcases exec_cases h with ⟨f, n, as, -, -, -, rfl⟩ | ⟨_, _, _, _, _, _, -, -, -, rfl⟩ | ⟨_, _, _, _, -, -, rfl⟩ |
      ⟨_, _, _, -, -, rfl⟩ | ⟨_, _, _, -, -, rfl⟩ | ⟨_, _, _, _, _, -, -, -, -, rfl⟩ | ⟨_, -, -, rfl⟩ | ⟨-, rfl⟩
    · simp [raise]
    all_goals simp [State.past, State.fetched, memWrite, outPush, suspend, halt] at he

end Sys2Proof.Machine
end

