-- ==== Sys2Proof/Tests/Slice0.lean ====
section
/-! SUPPORT. Tests: words written out from the spec's encodings, ill-formed instructions, one step per instruction with
the result the spec's vectors give (95_test_vectors.md, by id), and for every statement with hypotheses a state that
meets them. -/

namespace Sys2Proof.Tests

open Sys2Proof Sys2Proof.Machine

/-- The machine after `Reset(image)` and the pushing of `input`. -/
def start (image input : List Word) : State := { resetWith image with input := input }

/-- The machine at `ip` with relative base `rb`, over an image. -/
def entry (image : List Word) (ip rb : Word) (input : List Word) : State :=
  { resetWith image with ip := ip, rb := rb, input := input }

/-- A machine whose cells from address `a` on hold `ws`, at `ip`. -/
def placed (a : Nat) (ws : List Word) (ip rb : Word) (input : List Word) : State :=
  { loadFrom a ws State.reset with ip := ip, rb := rb, input := input }

def after (o : Outcome) : Option State :=
  match o with
  | .next t => some t
  | .fault _ => none
  | .refused _ => none

/-- `IP`, `STATE` and `FAULT` after one step. -/
def verdict (s : State) : Option (Int × ExecState × Option FaultKind) :=
  (after (step s)).map fun t => (t.ip.toInt, t.status, t.fault)

/-- One cell after one step. -/
def cellAfter (s : State) (a : Nat) : Option Int := (after (step s)).map fun t => (readCell t.mem a).toInt

/-! ### Decoding: words written digit by digit, ten-thousands to units, as opcode_table.json spells them -/

/-- `CBA01` with C = 2, B = 1, A = 0. -/
theorem test_decode_add : decode 21001 = .ok (.add .position .immediate .relative) := by decide
/-- `CBA02` with C = 0, B = 2, A = 1. -/
theorem test_decode_mul : decode 2102 = .ok (.mul .immediate .relative .position) := by decide
/-- `--A03` with A = 2. -/
theorem test_decode_in : decode 203 = .ok (.inp .relative) := by decide
/-- `--A04` with A = 1, unexamined digits 7 and 8. -/
theorem test_decode_out : decode 87104 = .ok (.out .immediate) := by decide
/-- `-BA05` with B = 0, A = 1. -/
theorem test_decode_jt : decode 105 = .ok (.jt .immediate .position) := by decide
/-- `-BA06` with B = 1, A = 0 (42_jumps.md R91's example). -/
theorem test_decode_jf : decode 1006 = .ok (.jf .position .immediate) := by decide
/-- `CBA07` with C = 2, B = 0, A = 1. -/
theorem test_decode_lt : decode 20107 = .ok (.lt .immediate .position .relative) := by decide
/-- `CBA08` with C = 0, B = 1, A = 0 (43_compare.md R96's example). -/
theorem test_decode_eq : decode 1008 = .ok (.eq .position .immediate .position) := by decide
/-- `--A09` with A = 2. -/
theorem test_decode_arb : decode 209 = .ok (.arb .relative) := by decide
/-- `---99` with every unexamined digit 9 (R54). -/
theorem test_decode_hlt : decode 99999 = .ok .hlt := by decide
/-- A mode digit 3 to 9 is a bad mode (R64). -/
theorem test_decode_bad_modes :
    decode 301 = .ok (.add (.unknown 0) .position .position) ∧ decode 9104 = .ok (.out .immediate) ∧
    decode 903 = .ok (.inp (.unknown 6)) := by decide
/-- R64: opcodes 0 and 10 to 98 are none, and `-99` is not `HLT` (H8). -/
theorem test_decode_rejects :
    decode 0 = .error (.noSuchOpcode 0) ∧ decode 10 = .error (.noSuchOpcode 10) ∧
    decode 1198 = .error (.noSuchOpcode 98) ∧ decode (-99) = .error .negativeWord := by decide

/-- R71's examples of assembled instructions. -/
theorem test_assemble :
    assemble (.add (.value 100) (.value (-1)) (.cell 4)) = some [1101, 100, -1, 4] ∧
    assemble (.out (.based (-1))) = some [204, -1] ∧
    assemble (.add (.value 5) (.value 6) (.based 3)) = some [21101, 5, 6, 3] ∧
    assemble (.inp (.value 0)) = none := by decide
/-- R72's idioms. -/
theorem test_assemble_idioms :
    assemble (.jt (.value 1) (.value 7)) = some [1105, 1, 7] ∧ assemble (.jf (.value 0) (.value 7)) = some [1106, 0, 7] ∧
    assemble (.arb (.value 0)) = some [109, 0] ∧ assemble .hlt = some [99] := by decide

theorem test_table_words :
    decodeTableWord 8 4 = some (.out .position) ∧ decodeTableWord 8 99 = some .hlt ∧
    decodeTableWord 16 1102 = some (.mul .immediate .immediate .position) ∧ decodeTableWord 8 98 = none := by decide

/-- The word placed is the one that runs: `MUL #0, #0, [0]` and `HLT` as first instructions after reset. -/
theorem test_placed_word_runs :
    verdict (State.reset.withFetchWord 16 1102) = some (4, .runnable, none) ∧
    verdict (State.reset.withFetchWord 8 99) = some (1, .terminated, none) := by decide

/-! ### Well-formedness: an ill-formed term for each check -/

theorem smoke_unknown_mode_on_a_source : (Instr.out (.unknown 0)).wellFormed = false := by decide
theorem smoke_unknown_mode_on_a_destination : (Instr.add .position .position (.unknown 6)).wellFormed = false := by decide
theorem smoke_immediate_destination :
    (Instr.inp .immediate).wellFormed = false ∧ (Instr.eq .position .position .immediate).wellFormed = false := by decide
theorem smoke_well_formed :
    (Instr.lt .immediate .relative .relative).wellFormed = true ∧ Instr.hlt.wellFormed = true := by decide

/-! ### One step per instruction, against the spec's vectors -/

/-- A1 (the source's example) and A3's relative operands. -/
theorem test_add_modes :
    cellAfter (start [1101, 100, -1, 4, 0] []) 4 = some 99 ∧
    cellAfter (entry [109, 7, 22201, 0, 1, 2, 99, 100, -1, 0] 2 7 []) 9 = some 99 := by decide
/-- A5 and A7: an overflow stores nothing with `IP = A + 4`, and the destination may be the instruction's own word. -/
theorem test_add_overflow_and_self :
    verdict (start [1101, 9223372036854775807, 1, 0] []) = some (4, .error, some .arithmeticOverflow) ∧
    cellAfter (start [1101, 9223372036854775807, 1, 0] []) 0 = some 1101 ∧
    cellAfter (start [1001, 0, 1, 0, 99] []) 0 = some 1002 := by decide
/-- M2, M7. -/
theorem test_mul_exact :
    cellAfter (start [1102, 4294967296, 1073741824, 0, 99] []) 0 = some 4611686018427387904 ∧
    cellAfter (start [1102, -3, 4, 5, 99] []) 5 = some (-12) := by decide
/-- M3, M4. -/
theorem test_mul_overflow :
    verdict (start [1102, 4294967296, 2147483648, 0, 99] []) = some (4, .error, some .arithmeticOverflow) ∧
    verdict (start [1102, -9223372036854775808, -1, 0] []) = some (4, .error, some .arithmeticOverflow) := by decide
/-- I9's first step, and I5: a faulting `IN` pops nothing. -/
theorem test_in_pops_one :
    (after (step (start [3, 0, 4, 0, 99] [-7, 8]))).map (fun t => (t.input, (readCell t.mem 0).toInt)) =
      some ([8], -7) ∧
    (after (step (start [103, 0] [5]))).map (fun t => (t.input, t.ip, t.fault)) =
      some ([5], 1, some .badParameterMode) := by decide
/-- I2, I8: with the channel empty `IN` suspends, even with an illegal mode. -/
theorem test_in_suspends :
    verdict (start [3, 0, 4, 0, 99] []) = some (0, .awaitingInput, none) ∧
    verdict (start [303, 0] []) = some (0, .awaitingInput, none) := by decide
/-- I10: a never-written cell is output as 0 and materialised. -/
theorem test_out_materialises :
    (after (step (start [4, 50, 99] []))).map (fun t => (t.output, t.memDom)) = some ([0], [0, 1, 2, 50]) := by decide
/-- J1, J2, and J7: parameter 2 is resolved though the jump is not taken. -/
theorem test_jt :
    verdict (start [1105, -1, 4, 99, 104, 1, 99] []) = some (4, .runnable, none) ∧
    verdict (start [1105, 0, 4, 99, 104, 1, 99] []) = some (3, .runnable, none) ∧
    verdict (start [3105, 0, 0] []) = some (2, .error, some .unknownAccessMode) := by decide
/-- J3, J4. -/
theorem test_jf :
    verdict (start [1106, 0, 4, 99, 104, 1, 99] []) = some (4, .runnable, none) ∧
    verdict (start [1106, 3, 4, 99, 104, 1, 99] []) = some (3, .runnable, none) := by decide
/-- C2, C4, C5. -/
theorem test_lt :
    cellAfter (start [1107, 8, 3, 5, 99, -1] []) 5 = some 0 ∧ cellAfter (start [1107, 4, 4, 5, 99, -1] []) 5 = some 0 ∧
    cellAfter (start [1107, -9223372036854775808, 9223372036854775807, 5, 99, -1] []) 5 = some 1 := by decide
/-- C6, C7. -/
theorem test_eq :
    cellAfter (start [1108, -7, -7, 5, 99, -1] []) 5 = some 1 ∧
    cellAfter (start [1108, 7, -7, 5, 99, -1] []) 5 = some 0 := by decide
/-- R1's second pass (`ARB [0]` adds), and R5: an overflow leaves `RB` with `IP = A + 2`. -/
theorem test_arb :
    (after (step (entry [109, -5, 109, 5, 9, 0, 99] 4 0 []))).map (fun t => t.rb.toInt) = some 109 ∧
    (after (step (entry [109, 9223372036854775807, 109, 1] 2 9223372036854775807 []))).map
      (fun t => (t.rb.toInt, t.ip.toInt, t.fault)) = some (9223372036854775807, 4, some .arithmeticOverflow) := by decide
/-- H1 to H4. -/
theorem test_hlt :
    verdict (start [99] []) = some (1, .terminated, none) ∧ verdict (start [1099] []) = some (1, .terminated, none) ∧
    verdict (start [100099] []) = some (1, .terminated, none) := by decide
/-- H5, H7, H9. -/
theorem test_unknown_opcode :
    verdict (start [98] []) = some (1, .error, some .unknownOpcode) ∧
    verdict (start [-1] []) = some (1, .error, some .unknownOpcode) ∧
    verdict State.reset = some (1, .error, some .unknownOpcode) := by decide
/-- F1, F3, F4, F6: which fault is met first, and where `IP` stands. -/
theorem test_fault_order :
    verdict (start [11101, 1, 1, 0, 99] []) = some (3, .error, some .badParameterMode) ∧
    verdict (start [10301, 1, 1, 0] []) = some (1, .error, some .unknownAccessMode) ∧
    verdict (start [11101, 9223372036854775807, 1, 0] []) = some (3, .error, some .badParameterMode) ∧
    verdict (start [1101, 1, 1, -1] []) = some (3, .error, some .negativeAddress) := by decide
/-- R4, R6, and the fetch after J6. -/
theorem test_relative_faults :
    verdict (entry [109, -1, 204, 0] 2 (-1) []) = some (3, .error, some .negativeAddress) ∧
    verdict (entry [109, 9223372036854775807, 204, 1] 2 9223372036854775807 []) =
      some (3, .error, some .arithmeticOverflow) ∧
    verdict (entry [1105, 1, -5] (-5) 0 []) = some (-5, .error, some .negativeAddress) := by decide
/-- S5, S2 and F7 as runs; the report of a second run. -/
theorem test_run :
    (run 3 (start [3, 0, 4, 0, 99] [42])).map (fun r => (r.1, r.2.output)) = some (.halted, [42]) ∧
    ((run 1 (start [98] [])).bind fun r => run 1 r.2).map Prod.fst = some (.rejected .machineInError) := by decide
/-- P11's input: the bytes 65 and 10; and a byte above 127 is unsigned (D18). -/
theorem test_push_ascii : (pushAscii [65, 10, 200] State.reset).input = [65, 10, 200] := by decide
/-- S1: `Exists` and `Size` see a cell that was read. -/
theorem test_debug_queries :
    domSize (start [99] []) = 1 ∧ domSize (memRead 5 (start [99] [])).2 = 2 ∧
    existsAddr 5 (memRead 5 (start [99] [])).2 = true ∧ existsAddr 5 (start [99] []) = false := by decide
/-- R78: the strict reading of a text; an empty token and a value beyond 64 bits are malformed. -/
theorem test_program_text :
    parseTokens false (splitCommas ['1', '0', '1', ',', '-', '7']) = some [101, -7] ∧
    parseTokens false (splitCommas ['1', ',', ',', '2']) = none ∧
    parseTokens false (splitCommas ['+', '1']) = none ∧ parseTokens true (splitCommas ['+', '1', '\n']) = some [1] ∧
    parseToken true ['9', '2', '2', '3', '3', '7', '2', '0', '3', '6', '8', '5', '4', '7', '7', '5', '8', '0', '8'] = none := by
  decide
/-- P10's first move of a value between two instances. -/
theorem test_move_value :
    (moveValue { State.reset with output := [5, 6] } State.reset).1.output = [6] ∧
    (moveValue { State.reset with output := [5, 6] } State.reset).2.input = [5] := by decide

/-! ### Witnesses: states that meet the hypotheses of each statement, at the ends of its ranges -/

theorem witness_ModesAreTheHundredsThousandsTenThousands :
    decode 21001 = .ok (.add .position .immediate .relative) ∧
    (Instr.add .position .immediate .relative).modes[0]? = some .position ∧
    (Instr.add .position .immediate .relative).modes[1]? = some .immediate ∧
    (Instr.add .position .immediate .relative).modes[2]? = some .relative := by decide
theorem witness_LastTwoDigitsSelectTheInstruction :
    0 ≤ (0 : Word).toInt ∧ 0 ≤ (99 : Word).toInt ∧ decode 99 = .ok .hlt ∧ decode 0 = .error (.noSuchOpcode 0) := by decide
theorem witness_UnexaminedDigitsAreIgnored :
    0 ≤ (30104 : Word).toInt ∧ decode 104 = .ok (.out .immediate) ∧
    (30104 : Word).toInt.toNat % 100 = (104 : Word).toInt.toNat % 100 ∧
    ∀ n < (Instr.out .immediate).modes.length,
      digit (2 + n) (30104 : Word).toInt.toNat = digit (2 + n) (104 : Word).toInt.toNat := by decide
theorem witness_EqualContentsAreEqualMemories :
    Memory.wf [(0, 5), (9223372036854775807, -1)] ∧
    ∀ a, readCell [(0, 5), (9223372036854775807, -1)] a = readCell [(0, 5), (9223372036854775807, -1)] a :=
  ⟨by decide, fun _ => rfl⟩
theorem witness_InputChannelIsAQueue :
    (start [99] [1, 2]).input = 1 :: [2] ∧ (start [99] []).input = [] := by decide
theorem witness_OutputChannelIsAQueue :
    ({ State.reset with output := [1, 2] } : State).output = 1 :: [2] ∧ State.reset.output = [] := by decide
theorem witness_PopOutputTakesTheOldestEntry :
    ({ State.reset with output := [1] } : State).output = 1 :: [] ∧ State.reset.output = [] := by decide
theorem witness_ResetWithAnImageMeetsTheInvariant : ([3, 0, 99] : List Word).length ≤ Config.addrMax + 1 := by decide

/-- A state with a program that every statement about good states can be tried on. -/
theorem start_meets_the_invariant : (start [4, 0, 99] [7]).Inv := ⟨by decide, by decide, by decide, by decide⟩
theorem witness_HostOperationsKeepTheInvariant :
    (start [4, 0, 99] [7]).Inv ∧ ∃ rep t, run 2 (start [4, 0, 99] [7]) = some (rep, t) :=
  ⟨start_meets_the_invariant, _, _, rfl⟩
theorem witness_EveryStepKeepsTheInvariant :
    (start [4, 0, 99] [7]).Inv ∧ ∃ t, step (start [4, 0, 99] [7]) = .next t :=
  ⟨start_meets_the_invariant, _, rfl⟩

/-- Each clause at the ends of its range: address 0 and -1, sum 0 and -1, `INT_MAX + 1` and `INT_MIN - 1`. -/
theorem witness_AddressingModesResolveAsListed :
    0 ≤ (0 : Word).toInt ∧ (-1 : Word).toInt < 0 ∧
    (Fits ((5 : Word).toInt + (-5 : Word).toInt) ∧ 0 ≤ (5 : Word).toInt + (-5 : Word).toInt) ∧
    (Fits ((5 : Word).toInt + (-6 : Word).toInt) ∧ (5 : Word).toInt + (-6 : Word).toInt < 0) ∧
    ¬ Fits ((9223372036854775807 : Word).toInt + (1 : Word).toInt) ∧
    ¬ Fits ((-9223372036854775808 : Word).toInt + (-1 : Word).toInt) ∧
    effective .position ((start [4, 7, 99] []).rawParam 1) (start [4, 7, 99] []).rb = .ok 7 ∧
    effective .position ((start [4, -7, 99] []).rawParam 1) (start [4, -7, 99] []).rb = .error .negativeAddress := by
  decide

/-- At the lowest and at the highest address from which a fetch does not fault. -/
theorem witness_StepRunsTheDecodedInstruction :
    (start [99] []).Live ∧ (start [99] []).hasRoom 1 ∧ decode (start [99] []).nextWord = .ok .hlt ∧
    (placed 9223372036854775806 [99] 9223372036854775806 0 []).hasRoom 1 ∧
    decode (placed 9223372036854775806 [99] 9223372036854775806 0 []).nextWord = .ok .hlt := by decide
theorem witness_FetchFaultsOnNegativeAndOnLastAddress :
    (entry [] (-1) 0 []).Live ∧ (entry [] (-1) 0 []).ip.toInt < 0 ∧ (entry [] 9223372036854775807 0 []).Live ∧
    (entry [] 9223372036854775807 0 []).ip.toInt = intMax := by decide
theorem witness_UnknownOpcodeFaultsAfterTheFetch :
    (start [-1] []).Live ∧ (start [-1] []).hasRoom 1 ∧ (start [-1] []).nextWord.toInt < 0 ∧
    (start [10] []).nextWord.toInt % 100 ∉ [1, 2, 3, 4, 5, 6, 7, 8, 9, 99] ∧
    (start [0] []).nextWord.toInt % 100 ∉ [1, 2, 3, 4, 5, 6, 7, 8, 9, 99] := by decide
theorem witness_StoredInstructionIsTheOneFetched : (start [0] []).Live ∧ (start [0] []).hasRoom 1 := by decide

/-- `ADD #100, #-1, [4]` after its fetch; also with the last address as destination and the largest sum. -/
theorem witness_AddStoresTheExactSum :
    (entry [1101, 100, -1, 4] 1 0 []).hasRoom 3 ∧ (entry [1101, 100, -1, 4] 1 0 []).source .immediate 0 = .ok 100 ∧
    (entry [1101, 100, -1, 4] 1 0 []).source .immediate 1 = .ok (-1) ∧
    (entry [1101, 100, -1, 4] 1 0 []).dest .position 2 = .ok 4 ∧ Fits ((100 : Word).toInt + (-1 : Word).toInt) := by decide
theorem witness_MulStoresTheExactProduct :
    (entry [2, 4, 5, 0, 7, -6] 1 0 []).hasRoom 3 ∧ (entry [2, 4, 5, 0, 7, -6] 1 0 []).source .position 0 = .ok 7 ∧
    (entry [2, 4, 5, 0, 7, -6] 1 0 []).source .position 1 = .ok (-6) ∧
    (entry [2, 4, 5, 0, 7, -6] 1 0 []).dest .position 2 = .ok 0 ∧ Fits ((7 : Word).toInt * (-6 : Word).toInt) := by decide
theorem witness_LtStoresOneExactlyWhenLess :
    (entry [22207, 1, 2, 3] 1 1 []).hasRoom 3 ∧ (entry [22207, 1, 2, 3] 1 1 []).source .relative 0 = .ok 2 ∧
    (entry [22207, 1, 2, 3] 1 1 []).source .relative 1 = .ok 3 ∧
    (entry [22207, 1, 2, 3] 1 1 []).dest .relative 2 = .ok 4 := by decide
theorem witness_EqStoresOneExactlyWhenEqual :
    (entry [108, 0, 50, 5] 1 0 []).hasRoom 3 ∧ (entry [108, 0, 50, 5] 1 0 []).source .immediate 0 = .ok 0 ∧
    (entry [108, 0, 50, 5] 1 0 []).source .position 1 = .ok 0 ∧
    (entry [108, 0, 50, 5] 1 0 []).dest .position 2 = .ok 5 := by decide
theorem witness_InStoresTheOldestInput :
    (entry [3, 7] 1 0 [42, 43]).hasRoom 1 ∧ (entry [3, 7] 1 0 [42, 43]).input = 42 :: [43] ∧
    (entry [3, 7] 1 0 [42, 43]).dest .position 0 = .ok 7 := by decide
theorem witness_OutAppendsTheOperand :
    (entry [204, -1] 1 1 []).hasRoom 1 ∧ (entry [204, -1] 1 1 []).source .relative 0 = .ok 204 := by decide
/-- Taken to a negative target, and not taken. -/
theorem witness_JtJumpsExactlyWhenNonzero :
    (entry [1105, 1, -5] 1 0 []).hasRoom 2 ∧ (entry [1105, 1, -5] 1 0 []).source .immediate 0 = .ok 1 ∧
    (entry [1105, 1, -5] 1 0 []).source .immediate 1 = .ok (-5) ∧
    (entry [1105, 0, -5] 1 0 []).source .immediate 0 = .ok 0 := by decide
theorem witness_JfJumpsExactlyWhenZero :
    (entry [1006, 101, 9] 1 0 []).hasRoom 2 ∧ (entry [1006, 101, 9] 1 0 []).source .position 0 = .ok 0 ∧
    (entry [1006, 101, 9] 1 0 []).source .immediate 1 = .ok 9 ∧
    (entry [1006, 1, 9] 1 0 []).source .position 0 = .ok 1 := by decide
/-- The largest sum that fits. -/
theorem witness_ArbAddsTheOperandToTheRelativeBase :
    (entry [109, 1] 1 9223372036854775806 []).hasRoom 1 ∧
    (entry [109, 1] 1 9223372036854775806 []).source .immediate 0 = .ok 1 ∧
    Fits ((entry [109, 1] 1 9223372036854775806 []).rb.toInt + (1 : Word).toInt) := by decide
theorem witness_HltTerminatesTheMachine :
    (start [199] []).Live ∧ (start [199] []).hasRoom 1 ∧ (start [199] []).nextWord.toInt = 99 + 100 * (1 : Nat) ∧
    (start [99] []).nextWord.toInt = 99 + 100 * (0 : Nat) := by decide
theorem witness_InSuspendsAndResumesFromScratch :
    (start [3, 0] []).Live ∧ (start [3, 0] []).hasRoom 1 ∧
    decode (start [3, 0] []).nextWord = .ok (.inp .position) ∧ (start [3, 0] []).input = [] := by decide

/-- Each kind of fault a source can raise; the first parameter word may be any cell. -/
theorem witness_FirstSourceFaultStopsOnItsWord :
    0 ≤ (entry [1, -1] 1 0 []).ip.toInt ∧ (entry [1, -1] 1 0 []).source .position 0 = .error .negativeAddress ∧
    (entry [301, 1] 1 0 []).source (.unknown 0) 0 = .error .unknownAccessMode ∧
    (entry [204, 1] 1 9223372036854775807 []).source .relative 0 = .error .arithmeticOverflow ∧
    Instr.arb .position ∈ [Instr.add .position .position .position, .mul .position .position .position,
      .lt .position .position .position, .eq .position .position .position, .jt .position .position,
      .jf .position .position, .out .position, .arb .position] := by decide
theorem witness_SecondSourceFaultStopsOnItsWord :
    (entry [3105, 0, 0] 1 0 []).hasRoom 1 ∧ (entry [3105, 0, 0] 1 0 []).source .immediate 0 = .ok 0 ∧
    (entry [3105, 0, 0] 1 0 []).source (.unknown 0) 1 = .error .unknownAccessMode ∧
    Instr.jt .immediate (.unknown 0) ∈ [Instr.add .immediate (.unknown 0) .position,
      .mul .immediate (.unknown 0) .position, .lt .immediate (.unknown 0) .position,
      .eq .immediate (.unknown 0) .position, .jt .immediate (.unknown 0), .jf .immediate (.unknown 0)] := by decide
theorem witness_DestinationFaultStoresNothing :
    (entry [11101, 1, 1, 0] 1 0 []).hasRoom 2 ∧ (entry [11101, 1, 1, 0] 1 0 []).source .immediate 0 = .ok 1 ∧
    (entry [11101, 1, 1, 0] 1 0 []).source .immediate 1 = .ok 1 ∧
    (entry [11101, 1, 1, 0] 1 0 []).dest .immediate 2 = .error .badParameterMode ∧
    (entry [1101, 1, 1, -1] 1 0 []).dest .position 2 = .error .negativeAddress := by decide
theorem witness_InDestinationFaultKeepsTheInput :
    0 ≤ (entry [103, 0] 1 0 [5]).ip.toInt ∧ (entry [103, 0] 1 0 [5]).input ≠ [] ∧
    (entry [103, 0] 1 0 [5]).dest .immediate 0 = .error .badParameterMode := by decide
/-- `INT_MAX + 1` and `INT_MIN * -1`, each with operands that resolve. -/
theorem witness_ArithmeticOverflowStoresNothing :
    (entry [1101, 9223372036854775807, 1, 0] 1 0 []).hasRoom 3 ∧
    (entry [1101, 9223372036854775807, 1, 0] 1 0 []).source .immediate 0 = .ok 9223372036854775807 ∧
    (entry [1101, 9223372036854775807, 1, 0] 1 0 []).source .immediate 1 = .ok 1 ∧
    (entry [1101, 9223372036854775807, 1, 0] 1 0 []).dest .position 2 = .ok 0 ∧
    ¬ Fits ((9223372036854775807 : Word).toInt + (1 : Word).toInt) ∧
    (entry [1102, -9223372036854775808, -1, 0] 1 0 []).source .immediate 0 = .ok (-9223372036854775808) ∧
    (entry [1102, -9223372036854775808, -1, 0] 1 0 []).source .immediate 1 = .ok (-1) ∧
    ¬ Fits ((-9223372036854775808 : Word).toInt * (-1 : Word).toInt) := by decide
theorem witness_BaseOverflowLeavesTheRelativeBase :
    (entry [109, 1] 1 9223372036854775807 []).hasRoom 1 ∧
    (entry [109, 1] 1 9223372036854775807 []).source .immediate 0 = .ok 1 ∧
    ¬ Fits ((entry [109, 1] 1 9223372036854775807 []).rb.toInt + (1 : Word).toInt) := by decide
/-- One state for each clause, with the last parameter word at the last address. -/
theorem witness_SteppingPastTheLastCellOverflows :
    ((placed 9223372036854775807 [5] 9223372036854775807 0 []).ip.toInt = intMax ∧
      (placed 9223372036854775807 [5] 9223372036854775807 0 []).source .immediate 0 = .ok 5) ∧
    ((placed 9223372036854775806 [5, 6] 9223372036854775806 0 []).ip.toInt = intMax - 1 ∧
      (placed 9223372036854775806 [5, 6] 9223372036854775806 0 []).source .immediate 0 = .ok 5 ∧
      (placed 9223372036854775806 [5, 6] 9223372036854775806 0 []).source .immediate 1 = .ok 6) ∧
    ((placed 9223372036854775805 [5, 6, 7] 9223372036854775805 0 []).ip.toInt = intMax - 2 ∧
      (placed 9223372036854775805 [5, 6, 7] 9223372036854775805 0 []).source .immediate 0 = .ok 5 ∧
      (placed 9223372036854775805 [5, 6, 7] 9223372036854775805 0 []).source .immediate 1 = .ok 6 ∧
      (placed 9223372036854775805 [5, 6, 7] 9223372036854775805 0 []).dest .position 2 = .ok 7) ∧
    ((placed 9223372036854775807 [5] 9223372036854775807 0 [1]).input ≠ [] ∧
      (placed 9223372036854775807 [5] 9223372036854775807 0 [1]).dest .position 0 = .ok 5) := by decide

/-- Completing and faulting, with a destination that resolves and with one that does not. -/
theorem witness_ThreeParameterInstructionsFrame :
    (∃ t, exec (.add .immediate .immediate .position) (entry [1101, 100, -1, 4] 1 0 []) = .next t) ∧
    (entry [1101, 100, -1, 4] 1 0 []).dest .position 2 = .ok 4 ∧
    (∃ t, exec (.add .immediate .immediate .immediate) (entry [11101, 1, 1, 0] 1 0 []) = .next t) ∧
    (entry [11101, 1, 1, 0] 1 0 []).dest .immediate 2 = .error .badParameterMode :=
  ⟨⟨_, rfl⟩, by decide, ⟨_, rfl⟩, by decide⟩
theorem witness_InFrame :
    (∃ t, exec (.inp .position) (entry [3, 7] 1 0 [42]) = .next t) ∧ (entry [3, 7] 1 0 [42]).dest .position 0 = .ok 7 ∧
    (entry [3, 7] 1 0 [42]).input ≠ [] ∧ (∃ t, exec (.inp .position) (entry [3, 7] 1 0 []) = .next t) ∧
    (entry [3, 7] 1 0 []).input = [] ∧ (∃ t, exec (.inp .immediate) (entry [103, 7] 1 0 [42]) = .next t) ∧
    (entry [103, 7] 1 0 [42]).dest .immediate 0 = .error .badParameterMode :=
  ⟨⟨_, rfl⟩, by decide, by decide, ⟨_, rfl⟩, by decide, ⟨_, rfl⟩, by decide⟩
theorem witness_InstructionsThatStoreNothingFrame :
    (∃ t, exec (.jt .immediate .immediate) (entry [1105, 1, 7] 1 0 []) = .next t) ∧
    Instr.jt .immediate .immediate ≠ .arb .immediate ∧ Instr.jt .immediate .immediate ≠ .out .immediate ∧
    (∃ t, exec (.arb .immediate) (entry [109, 1] 1 0 []) = .next t) ∧
    (∃ t, exec (.out .immediate) (entry [104, 1] 1 0 []) = .next t) :=
  ⟨⟨_, rfl⟩, by decide, by decide, ⟨_, rfl⟩, ⟨_, rfl⟩⟩

theorem witness_LiveMachinesStepAndTerminalOnesDoNot :
    State.reset.Live ∧ ({ State.reset with status := .awaitingInput } : State).Live ∧
    ({ State.reset with status := .terminated } : State).status = .terminated ∧
    ({ State.reset with status := .error } : State).status = .error := by decide
theorem witness_ShadowStateCannotBeObserved :
    (start [99] []).SameButShadow { start [99] [] with memDom := [0, 8], iw := 5 } ∧
    (∃ t, step (start [99] []) = .next t) ∧
    step { State.reset with status := .terminated } = .refused .programTerminated :=
  ⟨by decide, ⟨_, rfl⟩, rfl⟩
theorem witness_ExistingAddressesNeverDisappear :
    (∃ t, step (start [99] []) = .next t) ∧ 0 ∈ (start [99] []).memDom := ⟨⟨_, rfl⟩, by decide⟩
theorem witness_OnlyArbWritesTheRelativeBase :
    ∃ t, step (start [109, 5] []) = .next t ∧ t.rb ≠ (start [109, 5] []).rb := ⟨_, rfl, by decide⟩
theorem witness_OnlyInConsumesInput :
    ∃ t, step (start [3, 5] [1]) = .next t ∧ t.input ≠ (start [3, 5] [1]).input := ⟨_, rfl, by decide⟩
theorem witness_OnlyOutAppendsOutput :
    ∃ t, step (start [4, 0] []) = .next t ∧ t.output ≠ (start [4, 0] []).output := ⟨_, rfl, by decide⟩
/-- A step that suspends, one that halts, one that faults, one that goes on. -/
theorem witness_StepMakesTheTransitionsOfTheTable :
    (∃ t, step (start [3, 5] []) = .next t ∧ t.status = .awaitingInput) ∧
    (∃ t, step (start [99] []) = .next t ∧ t.status = .terminated) ∧
    (∃ t, step (start [98] []) = .next t ∧ t.status = .error) ∧
    (∃ t, step (start [4, 0] []) = .next t ∧ t.status = .runnable) :=
  ⟨⟨_, rfl, by decide⟩, ⟨_, rfl, by decide⟩, ⟨_, rfl, by decide⟩, ⟨_, rfl, by decide⟩⟩
theorem witness_FaultingStepHasNoEffectOfItsOwn :
    ∃ t, step (start [1101, 1, 1, -1] []) = .next t ∧ t.status = .error := ⟨_, rfl, by decide⟩
theorem witness_TerminatedMachineRejectsEveryRun :
    ({ State.reset with status := .terminated } : State).status = .terminated := by decide
theorem witness_MachineInErrorRejectsEveryRun :
    ({ State.reset with status := .error, fault := some .unknownOpcode } : State).status = .error := by decide
/-- The first clause, with the fuel just enough; the second, with one step and with two. -/
theorem witness_RunIsTheIteratedStep :
    (start [4, 0, 99] []).Live ∧ (∃ rep t, run 2 (start [4, 0, 99] []) = some (rep, t)) ∧
    (∃ t, (start [99] []).StopsAfter 1 t) ∧ ∃ t, (start [4, 0, 99] []).StopsAfter 2 t := by
  refine ⟨by decide, ⟨_, _, rfl⟩, ⟨_, by decide, rfl, by decide, fun j h1 h2 => absurd h2 (by omega)⟩,
    ⟨_, by decide, rfl, by decide, fun j h1 h2 u e => ?_⟩⟩
  obtain rfl : j = 1 := by omega
  cases e; decide
theorem witness_MoreFuelGivesTheSameRun : ∃ out, run 2 (start [4, 0, 99] []) = some out := ⟨_, rfl⟩
/-- A malformed token of a text; digits whose values are the last that fits and the first that does not, with either
sign; and a character that no token may have. -/
theorem witness_MalformedTokenFailsTheLoad :
    [] ∈ splitCommas ['1', ',', ',', '2'] ∧ parseToken Config.loaderLenient [] = none ∧
    ([9, 2, 2, 3, 3, 7, 2, 0, 3, 6, 8, 5, 4, 7, 7, 5, 8, 0, 8] : List (Fin 10)).foldl (fun v d => 10 * v + d.val) 0 =
      9223372036854775808 ∧
    Fits (9223372036854775807 : Nat) ∧ ¬ Fits (9223372036854775808 : Nat) ∧
    Fits (-(9223372036854775808 : Nat)) ∧ ¬ Fits (-(9223372036854775809 : Nat)) ∧
    'x' ∈ ['1', 'x'] ∧ 'x'.isDigit = false ∧ 'x' ∉ ['-', '+', ' ', '\t', '\n', '\r'] :=
  ⟨by decide, by cases Config.loaderLenient <;> rfl, by decide, by decide, by decide, by decide, by decide, by decide,
    by decide, by decide⟩

end Sys2Proof.Tests
end

section
/-! The memory operations on whole states (20_memory.md): what a cell reads as after a write, a sequence of writes, a
load and a reset; and the obligations of that chapter. -/

namespace Sys2Proof.Machine

/-! ### What a cell reads as -/

/-- `MemWrite` sets the cell it names and leaves every other (R34). -/
@[simp] theorem readCell_memWrite (s : State) (a x : Nat) (v : Word) :
    readCell (memWrite a v s).mem x = if x = a then v else readCell s.mem x :=
  readCell_writeCell s.mem a x v

/-- Of a sequence of writes, the last one to an address decides what it reads as (R30). -/
theorem readCell_foldl_memWrite (writes : List (Nat × Word)) (s : State) (a : Nat) :
    readCell (writes.foldl (fun s w => memWrite w.1 w.2 s) s).mem a =
      (writes.reverse.find? (fun w => w.1 = a)).elim (readCell s.mem a) Prod.snd := by
  induction writes using List.reverseRecOn with
  | nil => rfl
  | append_singleton ws w ih =>
    rw [List.foldl_append, List.foldl_cons, List.foldl_nil, readCell_memWrite, ih, List.reverse_concat]
    by_cases h : w.1 = a
    · simp [h]
    · simp [h, Ne.symm h]

/-- A load fills the addresses from `k` on with the listed values and leaves every other cell. -/
theorem readCell_loadFrom (ws : List Word) (k a : Nat) (s : State) :
    readCell (loadFrom k ws s).mem a =
      if k ≤ a ∧ a < k + ws.length then ws.getD (a - k) 0 else readCell s.mem a := by
  induction ws generalizing k s with
  | nil =>
    have : ¬ (k ≤ a ∧ a < k) := by omega
    simp [loadFrom, this]
  | cons w ws ih =>
    rw [loadFrom, ih, readCell_memWrite, List.length_cons]
    rcases Nat.lt_trichotomy a k with hlt | rfl | hgt
    · rw [if_neg (by omega), if_neg (by omega), if_neg (by omega)]
    · simp
    · have hk : a - k = (a - (k + 1)) + 1 := by omega
      rw [hk, List.getD_cons_succ, if_neg (show a ≠ k by omega)]
      exact if_congr (by omega) rfl rfl

/-- After `Reset` an address reads as the image's value, and 0 past the image's end (R26, R30, R150). -/
@[simp] theorem readCell_resetWith (image : List Word) (a : Nat) :
    readCell (resetWith image).mem a = image.getD a 0 := by
  rw [resetWith, readCell_loadFrom]
  by_cases h : a < image.length
  · simp [h]
  · have hd : image.getD a 0 = 0 := List.getD_eq_default _ _ (by omega)
    rw [if_neg (by omega), hd]
    rfl

/-! ### The obligations of 20_memory.md -/

/-- Settles O7: the last write to an address decides, the image where there is none, and a read changes no cell. -/
theorem memoryHoldsTheMostRecentWrite : Obligations.MemoryHoldsTheMostRecentWrite := by
  refine ⟨fun image writes a => ?_, fun _ _ _ => rfl⟩
  rw [readCell_foldl_memWrite, readCell_resetWith]
  cases writes.reverse.find? (fun w => w.1 = a) with
  | none => rfl
  | some w => rfl

/-- Settles O8: only the set of existing addresses changes, as `mem_insertAddr` says. -/
theorem memReadGivesTheCellAndMaterialisesIt : Obligations.MemReadGivesTheCellAndMaterialisesIt :=
  fun s a => ⟨rfl, fun x => mem_insertAddr a x s.memDom, rfl⟩

/-- Settles O9: one cell and the set of existing addresses change, as `readCell_memWrite` and `mem_insertAddr` say. -/
theorem memWriteSetsOneCell : Obligations.MemWriteSetsOneCell := by
  intro s a v
  refine ⟨?_, fun x hx => ?_, fun x => mem_insertAddr a x s.memDom, rfl⟩
  · rw [readCell_memWrite, if_pos rfl]
  · rw [readCell_memWrite, if_neg hx]

end Sys2Proof.Machine
end

section
/-! Reading the modes of an instruction out of its word (30_encoding.md), and the suspension of `IN` with its
resumption (41_io.md, 60_exceptions.md); and the obligations of the family. -/

namespace Sys2Proof

/-! ### Modes and digits -/

/-- Of a decimal digit, `Mode.digit` gives back what `Mode.ofDigit` was given (R56). -/
theorem digit_ofDigit {d : Nat} (h : d < 10) : (Mode.ofDigit d).digit = d := by
  match d with
  | 0 | 1 | 2 => rfl
  | k + 3 =>
    have hk : k % 7 = k := Nat.mod_eq_of_lt (by omega)
    simp [Mode.ofDigit, Mode.digit, Fin.ofNat, hk, Nat.add_comm]

/-- `Mode(n)` is encoded by the digit of weight `10^(1+n)` (R57). -/
@[simp] theorem digit_modeOf (w n : Nat) : (modeOf w n).digit = w / 10 ^ (1 + n) % 10 :=
  digit_ofDigit (Nat.mod_lt _ (by decide))

/-- A word decodes exactly when it is not negative and its numeral does (R51, R52). -/
theorem decode_ok_iff (w : Word) (i : Instr) :
    decode w = .ok i ↔ 0 ≤ w.toInt ∧ decodeNat w.toInt.toNat = .ok i := by
  unfold decode
  by_cases h : w.toInt < 0
  · simp [h]
  · have hn : w.toInt.toNat = w.toNat := by
      rw [BitVec.toInt_eq_toNat_of_lt (by rw [BitVec.toInt_neg_iff] at h; omega), Int.toNat_natCast]
    rw [if_neg h, hn]
    exact ⟨fun hd => ⟨by omega, hd⟩, And.right⟩

/-- The modes of a decoded instruction are `Mode(1)`, `Mode(2)`, ... of its word, one for each parameter (R57). -/
theorem modes_of_decodeNat {w : Nat} {i : Instr} (h : decodeNat w = .ok i) :
    i.modes = (List.range i.modes.length).map fun n => modeOf w (1 + n) := by
  unfold decodeNat at h
  split at h <;> cases h <;> rfl

/-- Settles O3: `modes_of_decodeNat` names the digit each mode is read from. -/
theorem modesAreTheHundredsThousandsTenThousands : Obligations.ModesAreTheHundredsThousandsTenThousands := by
  intro w i n m hw hm
  obtain ⟨hnonneg, hd⟩ := (decode_ok_iff w i).mp hw
  refine ⟨hnonneg, ?_, Laws.Encoding.digit_le_nine m⟩
  rw [modes_of_decodeNat hd, List.getElem?_map, Option.map_eq_some_iff] at hm
  obtain ⟨k, hk, rfl⟩ := hm
  obtain ⟨-, rfl⟩ := List.getElem?_eq_some_iff.mp hk
  rw [digit_modeOf, List.getElem_range, ← Nat.add_assoc]

end Sys2Proof

namespace Sys2Proof.Machine

/-! ### Suspension and resumption of IN -/

/-- A step of a machine that can run executes the instruction at `IP` in the state the fetch leaves (R55, R66). -/
theorem step_of_decoded {s : State} {i : Instr} (hl : s.Live) (hr : s.hasRoom 1) (hd : decode s.nextWord = .ok i) :
    step s = exec i s.running.fetched :=
  (step_of_live hl).trans (runningStep_of_decoded (s := s.running) hr hd)

/-- A run whose first step stops the machine ends there, with the report of the state it reached (R124, R125). -/
theorem run_of_step_stops {s t : State} {rep : Report} (n : Nat) (h : step s = .next t) (ht : t.status ≠ .runnable)
    (hrep : reportOf t = some rep) : run (n + 1) s = some (rep, t) := by
  obtain ⟨hl, hstep⟩ := live_of_step h
  have hloop : runLoop n t = some t := by cases n <;> simp [runLoop, ht]
  simp [run, enterRun_of_live hl, runLoop, hstep, hloop, hrep]

/-- The state in which an `IN` that finds its channel empty leaves the machine: the fetch undone but for its effect on
`IW` and `MemDom` (R55, R85). -/
def State.suspendedAt (s : State) : State :=
  { s with status := .awaitingInput, iw := s.nextWord, memDom := insertAddr s.ip.toInt.toNat s.memDom }

@[simp] theorem suspendedAt_status (s : State) : s.suspendedAt.status = .awaitingInput := rfl
@[simp] theorem suspendedAt_nextWord (s : State) : s.suspendedAt.nextWord = s.nextWord := rfl

/-- Suspending moves `IP` back over the word the fetch moved it past (R85). -/
theorem suspend_fetched (s : State) : suspend s.running.fetched = s.suspendedAt := by
  simp only [suspend, State.fetched, BitVec.add_sub_cancel]
  rfl

/-- A machine suspended again is the same machine: its word and its address are latched already. -/
@[simp] theorem suspendedAt_idem (s : State) : s.suspendedAt.suspendedAt = s.suspendedAt := by
  simp only [State.suspendedAt, State.nextWord, insertAddr_idem]

/-- The fetch at the resumption leaves no trace of the suspension (R119). -/
theorem fetched_pushInput_suspendedAt (v : Word) (s : State) :
    (pushInput v s.suspendedAt).running.fetched = (pushInput v s).running.fetched := by
  simp only [pushInput, inPush, State.suspendedAt, State.fetched, State.nextWord, insertAddr_idem]

/-- `IN` on an empty channel suspends with `IP` on its instruction word (R85). -/
theorem step_inp_of_empty {s : State} {m : Mode} (hl : s.Live) (hr : s.hasRoom 1)
    (hd : decode s.nextWord = .ok (.inp m)) (he : s.input = []) : step s = .next s.suspendedAt := by
  rw [step_of_decoded hl hr hd]
  rcases exec_in_cases m s.running.fetched with ⟨-, h⟩ | ⟨v, rest, -, -, hin, -⟩ | ⟨v, rest, -, -, hin, -⟩
  · rw [h, suspend_fetched]
  all_goals simp [he] at hin

/-- Settles O36: the suspended machine meets the hypotheses again, and both resumptions execute `IN` in one state. -/
theorem inSuspendsAndResumesFromScratch : Obligations.InSuspendsAndResumesFromScratch := by
  intro s m hl hr hd he
  have hlive : s.suspendedAt.Live := .inr rfl
  have hfirst : step s = .next s.suspendedAt := step_inp_of_empty hl hr hd he
  have hagain : step s.suspendedAt = .next s.suspendedAt := by
    simpa using step_inp_of_empty (s := s.suspendedAt) hlive hr hd he
  refine ⟨s.suspendedAt, rfl, hfirst, fun n => ?_, hagain, fun n => ?_, fun v => ?_⟩
  · exact run_of_step_stops n hfirst (by simp) rfl
  · exact run_of_step_stops n hagain (by simp) rfl
  · rw [step_of_decoded (s := pushInput v s.suspendedAt) hlive hr hd, fetched_pushInput_suspendedAt]
    exact (step_of_decoded (s := pushInput v s) hl hr hd).symm

end Sys2Proof.Machine
end

section
/-! Where a run ends and where none begins: raised faults, terminal states, and what the host does between runs
(60_exceptions.md); and the obligations of that chapter. -/

namespace Sys2Proof.Machine

/-! ### The end of a run -/

/-- The loop of `Run` takes no step in a state that is not `Runnable` (R124). -/
theorem runLoop_of_not_runnable {s : State} (n : Nat) (h : s.status ≠ .runnable) : runLoop n s = some s := by
  cases n <;> rw [runLoop, if_neg h]

/-- A run that a fault ends reports its kind (R125). -/
@[simp] theorem reportOf_raise (k : FaultKind) (s : State) : reportOf (raise k s) = some (.faulted k) := rfl

/-! ### The rejection of a run -/

theorem enterRun_of_terminated {s : State} (h : s.status = .terminated) : enterRun s = .error .programTerminated := by
  simp only [enterRun, h]

theorem enterRun_of_error {s : State} (h : s.status = .error) : enterRun s = .error .machineInError := by
  simp only [enterRun, h]

/-- A run rejected on entry takes no step and leaves the state as it is, whatever its fuel (R121, R137). -/
theorem rejected_of_enterRun {s : State} {r : Refusal} (n : Nat) (h : enterRun s = .error r) :
    step s = .refused r ∧ run n s = some (.rejected r, s) := by
  constructor
  · simp only [step, h]
  · simp only [run, h]

/-! ### The output channel between runs -/

theorem popOutput_of_nil {s : State} (h : s.output = []) : popOutput s = (none, s) := by
  simp only [popOutput, outPop, h]

theorem popOutput_of_cons {s : State} {v : Word} {rest : List Word} (h : s.output = v :: rest) :
    popOutput s = (some v, { s with output := rest }) := by
  simp only [popOutput, outPop, h]

/-! ### The obligations of 60_exceptions.md -/

/-- Settles O16: `push_input` is `InPush`, which writes the one field. -/
theorem pushInputChangesOnlyTheInputChannel : Obligations.PushInputChangesOnlyTheInputChannel :=
  fun _ _ => rfl

/-- Settles O18: by the two cases of the channel, empty or not. -/
theorem popOutputTakesTheOldestEntry : Obligations.PopOutputTakesTheOldestEntry :=
  fun _ => ⟨popOutput_of_nil, fun _ _ => popOutput_of_cons⟩

/-- Settles O20: a raised result is passed on by `bind` and `finish`, and the raised state is not `Runnable`. -/
theorem raiseSetsStateAndFaultAndEndsTheStep : Obligations.RaiseSetsStateAndFaultAndEndsTheStep := by
  intro k s
  have hstop : (raise k s).status ≠ .runnable := by simp
  refine ⟨rfl, fun _ _ => bind_raised _, fun _ _ _ => ?_, fun _ => finish_raised _, reportOf_raise k s,
    fun n => runLoop_of_not_runnable n hstop⟩
  rw [check_error, bind_raised]

/-- Settles O56: the machine is rejected on entry into the run. -/
theorem terminatedMachineRejectsEveryRun : Obligations.TerminatedMachineRejectsEveryRun :=
  fun _ n h => rejected_of_enterRun n (enterRun_of_terminated h)

/-- Settles O57: the machine is rejected on entry into the run. -/
theorem machineInErrorRejectsEveryRun : Obligations.MachineInErrorRejectsEveryRun :=
  fun _ n h => rejected_of_enterRun n (enterRun_of_error h)

end Sys2Proof.Machine
end

section
/-! The decoder and the encoder as each other's inverse (30_encoding.md): a word decodes to an instruction exactly when
it carries the instruction's opcode and modes; and the obligations of that chapter that are about words alone. -/

namespace Sys2Proof

/-! ### The word of an instruction, read digit by digit -/

/-- Each digit stands for one mode (R56). -/
@[simp] theorem ofDigit_digit (m : Mode) : Mode.ofDigit m.digit = m := by
  cases m with
  | unknown k => simp [Mode.digit, Mode.ofDigit, Nat.add_comm 3]
  | _ => rfl

/-- The ten opcodes (R62). -/
def opcodes : List Nat := [1, 2, 3, 4, 5, 6, 7, 8, 9, 99]

theorem opcode_mem_opcodes (i : Instr) : i.opcode ∈ opcodes := by
  cases i <;> simp [Instr.opcode, opcodes]

theorem opcode_lt (i : Instr) : i.opcode < 100 := by
  cases i <;> simp [Instr.opcode]

/-- A numeral decodes to the instruction whose opcode its last two digits are (R62) and whose modes its next digits
are, one for each parameter (R57); no other digit matters (R54). -/
theorem decodeNat_ok_iff (w : Nat) (i : Instr) :
    decodeNat w = .ok i ↔
      w % 100 = i.opcode ∧ i.modes = (List.range i.modes.length).map fun n => modeOf w (1 + n) := by
  constructor
  · intro h
    refine ⟨?_, modes_of_decodeNat h⟩
    unfold decodeNat at h
    split at h <;> cases h <;> assumption
  · rintro ⟨hop, hmodes⟩
    unfold decodeNat
    rw [hop]
    cases i <;> simp_all [Instr.opcode, Instr.modes, List.range_succ]

/-- The numerals that are instructions are those that end in an opcode (R62, R64). -/
theorem exists_decodeNat_iff (w : Nat) : (∃ i, decodeNat w = .ok i) ↔ w % 100 ∈ opcodes := by
  constructor
  · rintro ⟨i, h⟩
    rw [((decodeNat_ok_iff w i).mp h).1]
    exact opcode_mem_opcodes i
  · intro h
    simp only [opcodes, List.mem_cons, List.not_mem_nil, or_false] at h
    unfold decodeNat
    rcases h with h | h | h | h | h | h | h | h | h | h <;> rw [h] <;> exact ⟨_, rfl⟩

/-- The words that are instructions: not negative (R52), and ending in an opcode (R62, R64). -/
theorem exists_decode_iff (w : Word) :
    (∃ i, decode w = .ok i) ↔ 0 ≤ w.toInt ∧ w.toInt.toNat % 100 ∈ opcodes := by
  simp only [decode_ok_iff, exists_and_left, exists_decodeNat_iff]

/-- The numeral of R51 carries the mode of parameter `n` in the digit of weight `10^(2+n)`. -/
theorem modesNumeral_digit (ms : List Mode) (n : Nat) (h : n < ms.length) :
    modesNumeral ms / 10 ^ n % 10 = ms[n].digit := by
  induction ms generalizing n with
  | nil => exact absurd h (by simp)
  | cons m ms ih =>
    have hm := Laws.Encoding.digit_le_nine m
    cases n with
    | zero => simp only [modesNumeral, pow_zero, List.getElem_cons_zero]; omega
    | succ n =>
      have hdiv : (m.digit + 10 * modesNumeral ms) / 10 = modesNumeral ms := by omega
      rw [modesNumeral, Nat.pow_succ', ← Nat.div_div_eq_div_mul, hdiv, List.getElem_cons_succ,
        ih n (by simpa using h)]

/-- The mode of parameter `n`, read out of an instruction's numeral (R51, R57). -/
theorem modeOf_numeral (i : Instr) (n : Nat) (h : n < i.modes.length) :
    modeOf i.numeral (1 + n) = i.modes[n] := by
  have hop := opcode_lt i
  have hdiv : (i.opcode + 100 * modesNumeral i.modes) / 10 ^ 2 = modesNumeral i.modes := by omega
  have hdigit : digit (1 + (1 + n)) i.numeral = i.modes[n].digit := by
    rw [digit, Instr.numeral, ← Nat.add_assoc, Nat.pow_add, ← Nat.div_div_eq_div_mul, hdiv,
      modesNumeral_digit i.modes n h]
  rw [modeOf, hdigit, ofDigit_digit]

theorem decodeNat_numeral (i : Instr) : decodeNat i.numeral = .ok i := by
  have hop := opcode_lt i
  refine (decodeNat_ok_iff _ i).mpr ⟨by rw [Instr.numeral]; omega, List.ext_getElem (by simp) fun n hn _ => ?_⟩
  rw [List.getElem_map, List.getElem_range, modeOf_numeral i n hn]

/-- An instruction's numeral has five digits at most (R51). -/
theorem numeral_lt (i : Instr) : i.numeral < 100000 := by
  cases i with
  | add m1 m2 m3 => exact (Laws.Encoding.add m1 m2 m3).1
  | mul m1 m2 m3 => exact (Laws.Encoding.mul m1 m2 m3).1
  | inp m1 => exact (Laws.Encoding.inp m1).1
  | out m1 => exact (Laws.Encoding.out m1).1
  | jt m1 m2 => exact (Laws.Encoding.jt m1 m2).1
  | jf m1 m2 => exact (Laws.Encoding.jf m1 m2).1
  | lt m1 m2 m3 => exact (Laws.Encoding.lt m1 m2 m3).1
  | eq m1 m2 m3 => exact (Laws.Encoding.eq m1 m2 m3).1
  | arb m1 => exact (Laws.Encoding.arb m1).1
  | hlt => exact Laws.Encoding.hlt.1

@[simp] theorem toInt_encode (i : Instr) : (encode i).toInt = i.numeral := by
  have := numeral_lt i
  rw [encode, BitVec.toInt_ofNat', Int.bmod_eq_of_le] <;> omega

/-- Decoding undoes encoding (R51, R62). -/
@[simp] theorem decode_encode (i : Instr) : decode (encode i) = .ok i := by
  refine (decode_ok_iff _ i).mpr ⟨?_, ?_⟩ <;> simp [decodeNat_numeral]

/-- The length of an instruction follows from its opcode (R50, R63). -/
theorem cells_of_opcode (i : Instr) :
    i.cells = if i.opcode ∈ [1, 2, 7, 8] then 4 else if i.opcode ∈ [5, 6] then 3
      else if i.opcode ∈ [3, 4, 9] then 2 else 1 := by
  cases i <;> simp [Instr.cells, Instr.modes, Instr.opcode]

/-- A mode is illegal on a path when it is no mode at all, or immediate on the write path (R56, R64). -/
theorem legalOn_eq_false_iff (p : Path) (m : Mode) :
    m.legalOn p = false ↔ (∃ k, m = .unknown k) ∨ (m = .immediate ∧ p = .write) := by
  cases p <;> cases m <;> simp [Mode.legalOn]

/-! ### The obligations -/

/-- Settles O1: eighteen words, each evaluated. -/
theorem specWordsDecodeAsWritten : Obligations.SpecWordsDecodeAsWritten := by
  unfold Obligations.SpecWordsDecodeAsWritten
  decide

/-- Settles O2: the numeral of an instruction ends in its opcode and carries each mode where it is read. -/
theorem decodeOfEncodeIsTheInstruction : Obligations.DecodeOfEncodeIsTheInstruction := decode_encode

/-- Settles O4: `exists_decode_iff` for a non-negative word. -/
theorem lastTwoDigitsSelectTheInstruction : Obligations.LastTwoDigitsSelectTheInstruction := by
  intro w hw
  refine ⟨(exists_decode_iff w).trans (and_iff_right hw), fun i hi => ⟨?_, cells_of_opcode i⟩⟩
  obtain ⟨-, hd⟩ := (decode_ok_iff w i).mp hi
  exact ((decodeNat_ok_iff _ i).mp hd).1.symm

/-- Settles O5: the digits that `decodeNat_ok_iff` reads are those the two words share. -/
theorem unexaminedDigitsAreIgnored : Obligations.UnexaminedDigitsAreIgnored := by
  intro w w' i hw' hw hop hdigits
  obtain ⟨-, hd⟩ := (decode_ok_iff w i).mp hw
  obtain ⟨hop', hmodes⟩ := (decodeNat_ok_iff _ i).mp hd
  refine (decode_ok_iff w' i).mpr ⟨hw', (decodeNat_ok_iff _ i).mpr ⟨hop.trans hop', ?_⟩⟩
  refine hmodes.trans (List.map_congr_left fun n hn => ?_)
  rw [modeOf, modeOf, ← Nat.add_assoc, hdigits n (List.mem_range.mp hn)]

/-- Settles O6: some parameter, with its path, has a mode that is illegal there. -/
theorem illFormedMeansAnIllegalModeOfTheList : Obligations.IllFormedMeansAnIllegalModeOfTheList := by
  intro i
  simp only [Instr.wellFormed, List.all_eq_false, Bool.not_eq_true, legalOn_eq_false_iff, Prod.exists,
    List.mem_iff_getElem?, List.getElem?_zip_eq_some]
  constructor
  · rintro ⟨p, m, ⟨n, hp, hm⟩, h⟩
    exact ⟨n, m, p, hm, hp, h⟩
  · rintro ⟨n, m, p, hm, hp, h⟩
    exact ⟨p, m, ⟨n, hp, hm⟩, h⟩

end Sys2Proof
end

section
/-! Memory, reset and the channels as data: the contents determine a canonical memory, what a load leaves, which of the
host's operations keep the invariant (10_state.md, 20_memory.md, 70_reset_and_hazards.md); and the obligations. -/

namespace Sys2Proof.Machine

/-! ### The contents of a canonical memory -/

/-- In a memory with rising addresses a non-zero value is read exactly where it is listed. -/
theorem mem_iff_readCell {m : Memory} (hm : m.Pairwise fun x y => x.1 < y.1) {a : Nat} {v : Word}
    (hv : v ≠ Config.defaultCell) : (a, v) ∈ m ↔ readCell m a = v := by
  induction m with
  | nil => simpa [readCell] using hv.symm
  | cons c rest ih =>
    obtain ⟨b, u⟩ := c
    obtain ⟨hlt, hrest⟩ := List.pairwise_cons.mp hm
    by_cases hab : a = b
    · subst hab
      have hnot : (a, v) ∉ rest := fun h => Nat.lt_irrefl a (hlt _ h)
      simp [readCell, hnot, eq_comm]
    · simp [readCell, hab, ih hrest]

/-- A canonical memory lists exactly the non-zero values it reads as. -/
theorem mem_iff_of_wf {m : Memory} (hm : m.wf) (c : Nat × Word) :
    c ∈ m ↔ c.2 ≠ Config.defaultCell ∧ readCell m c.1 = c.2 := by
  constructor
  · intro hc
    obtain ⟨hne, -⟩ := hm.2 c hc
    exact ⟨hne, (mem_iff_readCell hm.1 hne).mp hc⟩
  · rintro ⟨hne, hread⟩
    exact (mem_iff_readCell hm.1 hne).mpr hread

/-- Settles O10: the two memories list the same cells, and rising addresses leave them one order. -/
theorem equalContentsAreEqualMemories : Obligations.EqualContentsAreEqualMemories := by
  intro m m' hm hm' hread
  have hmem : ∀ c, c ∈ m ↔ c ∈ m' := fun c => by rw [mem_iff_of_wf hm, mem_iff_of_wf hm', hread]
  have hperm : m.Perm m' :=
    (List.perm_ext_iff_of_nodup (hm.1.imp fun h e => by simp [e] at h)
      (hm'.1.imp fun h e => by simp [e] at h)).mpr hmem
  exact hperm.eq_of_pairwise (fun x y _ _ h h' => absurd (Nat.lt_trans h h') (Nat.lt_irrefl _)) hm.1 hm'.1

/-! ### What a load leaves -/

/-- A load changes memory and the set of existing addresses, and nothing else. -/
theorem loadFrom_frame (ws : List Word) (k : Nat) (s : State) :
    loadFrom k ws s = { s with mem := (loadFrom k ws s).mem, memDom := (loadFrom k ws s).memDom } := by
  induction ws generalizing k s with
  | nil => rfl
  | cons w ws ih => exact (ih (k + 1) (memWrite k w s)).trans rfl

/-- A load makes the addresses it fills exist. -/
theorem mem_memDom_loadFrom (ws : List Word) (k a : Nat) (s : State) :
    a ∈ (loadFrom k ws s).memDom ↔ (k ≤ a ∧ a < k + ws.length) ∨ a ∈ s.memDom := by
  induction ws generalizing k s with
  | nil => exact (or_iff_right (by simp)).symm
  | cons w ws ih =>
    rw [loadFrom, ih, memWrite_memDom, mem_insertAddr, List.length_cons, ← or_assoc]
    exact or_congr_left (by omega)

/-- Settles O13: a load of the image into the reset state. -/
theorem resetLoadsTheImageAndClearsTheRest : Obligations.ResetLoadsTheImageAndClearsTheRest := by
  intro image
  have hdom : ∀ a, a ∈ (resetWith image).memDom ↔ a < image.length := fun a => by
    rw [resetWith, mem_memDom_loadFrom]
    simp [State.reset]
  have hframe : resetWith image = _ := loadFrom_frame image 0 State.reset
  refine ⟨readCell_resetWith image, hdom, ?_⟩
  rw [hframe]
  exact ⟨rfl, rfl, rfl, rfl, rfl, rfl⟩

/-! ### Keeping the invariant -/

/-- The invariant says nothing of `IP`, `RB`, `IW` and the channels, and it is kept where addresses of `Addr` are
accessed and `STATE` and `FAULT` move together. -/
theorem State.Inv.of_accesses {s t : State} {as : List Nat} (h : s.Inv) (ha : InAddr as) (hmem : t.mem = s.mem)
    (hdom : t.memDom = touchAll as s.memDom) (hlatch : t.fault = none ↔ t.status ≠ .error) : t.Inv where
  memory := hmem ▸ h.memory
  domain := hdom ▸ touchAll_wf h.domain ha
  written_exists := fun c hc => by
    rw [hdom, mem_touchAll]
    exact .inr (h.written_exists c (hmem ▸ hc))
  fault_latch := hlatch

/-- A write to an address of `Addr` keeps the invariant (R34). -/
theorem State.Inv.memWrite {s : State} {a : Nat} (v : Word) (h : s.Inv) (ha : a ≤ Config.addrMax) :
    (memWrite a v s).Inv where
  memory := writeCell_wf v h.memory ha
  domain := insertAddr_wf h.domain ha
  written_exists := fun c hc => by
    rw [memWrite_memDom, mem_insertAddr]
    rcases mem_writeCell hc with rfl | hc
    · exact .inl rfl
    · exact .inr (h.written_exists c hc)
  fault_latch := h.fault_latch

theorem State.Inv.loadFrom {s : State} {ws : List Word} {k : Nat} (h : s.Inv)
    (hk : k + ws.length ≤ Config.addrMax + 1) : (loadFrom k ws s).Inv := by
  induction ws generalizing k s with
  | nil => exact h
  | cons w ws ih =>
    rw [List.length_cons] at hk
    exact ih (h.memWrite w (by omega)) (by omega)

/-- A change of the channels alone keeps the invariant. -/
theorem State.Inv.of_channels {s : State} (h : s.Inv) (i o : List Word) : { s with input := i, output := o }.Inv :=
  h.of_accesses inAddr_nil rfl rfl h.fault_latch

theorem reset_inv : State.reset.Inv where
  memory := reset_memory_wf.1
  domain := reset_memory_wf.2
  written_exists := fun _ hc => absurd hc List.not_mem_nil
  fault_latch := by decide

/-- Settles O14: nothing exists yet and nothing has faulted. -/
theorem resetStateMeetsTheInvariant : Obligations.ResetStateMeetsTheInvariant := reset_inv

/-- Settles O15: each value is written to an address of `Addr`. -/
theorem resetWithAnImageMeetsTheInvariant : Obligations.ResetWithAnImageMeetsTheInvariant :=
  fun _ h => reset_inv.loadFrom (by omega)

/-! ### The channels -/

/-- `push_ascii` appends the bytes' values (R127). -/
theorem pushAscii_eq (bytes : List (BitVec 8)) (s : State) :
    pushAscii bytes s = { s with input := s.input ++ bytes.map zext8 } := by
  induction bytes generalizing s with
  | nil => simp [pushAscii]
  | cons b bs ih => rw [pushAscii, ih]; simp [pushInput, inPush]

/-- A byte counts as 0 to 255 (D18). -/
theorem toInt_zext8 (b : BitVec 8) : (zext8 b).toInt = b.toNat := by
  rw [zext8, BitVec.toInt_setWidth, Int.bmod_eq_of_le] <;> omega

/-- Settles O11: `IN` is a list, popped at its head. -/
theorem inputChannelIsAQueue : Obligations.InputChannelIsAQueue := by
  intro s v rest
  refine ⟨List.isEmpty_iff, fun h => ?_, rfl⟩
  simp only [inPop, h]

/-- Settles O12: `OUT` is a list, popped at its head. -/
theorem outputChannelIsAQueue : Obligations.OutputChannelIsAQueue :=
  fun _ _ _ => ⟨rfl, popOutput_of_cons, popOutput_of_nil⟩

/-- Settles O17: the values pushed are those of `zext8`. -/
theorem pushAsciiPushesEachByteInOrder : Obligations.PushAsciiPushesEachByteInOrder := by
  intro bytes s
  refine ⟨bytes.map zext8, pushAscii_eq bytes s, ?_⟩
  rw [List.map_map]
  exact List.map_congr_left fun b _ => toInt_zext8 b

end Sys2Proof.Machine
end

section
/-! What each instruction does where its parameters resolve (40_arithmetic.md to 44_relative_base.md): one equation per
instruction, in terms of the state in which its parameters have been resolved; and the obligations. -/

namespace Sys2Proof.Machine

/-! ### Resolving a parameter (R56, R58, R59) -/

theorem effective_position (p rb : Word) : effective .position p rb = checkAddr p.toInt := rfl

theorem effective_relative_of_fits {p rb : Word} (h : Fits (p.toInt + rb.toInt)) :
    effective .relative p rb = checkAddr (p.toInt + rb.toInt) := if_pos h

theorem effective_relative_of_not_fits {p rb : Word} (h : ¬ Fits (p.toInt + rb.toInt)) :
    effective .relative p rb = .error .arithmeticOverflow := if_neg h

/-- Every source but an immediate one is the cell at its effective address (R59). -/
theorem source_of_not_immediate (s : State) (k : Nat) {m : Mode} (h : m ≠ .immediate) :
    s.source m k = (effective m (s.rawParam k) s.rb).map (readCell s.mem) := by
  cases m with
  | immediate => exact absurd rfl h
  | position | relative | unknown _ => all_goals rfl

/-- Settles O21: mode by mode, and of a relative address the sum before the sign. -/
theorem addressingModesResolveAsListed : Obligations.AddressingModesResolveAsListed := by
  refine ⟨fun p rb => ⟨fun h => ?_, fun h => ?_, fun hf h => ?_, fun hf h => ?_, effective_relative_of_not_fits, rfl,
    fun _ => rfl⟩, fun s k => ⟨rfl, fun m hm => ⟨fun e he => ?_, fun f hf => ?_⟩⟩⟩
  · rw [effective_position, checkAddr_of_nonneg h]
  · rw [effective_position, checkAddr_of_neg h]
  · rw [effective_relative_of_fits hf, checkAddr_of_nonneg h]
  · rw [effective_relative_of_fits hf, checkAddr_of_neg h]
  · rw [source_of_not_immediate s k hm, he]; rfl
  · rw [source_of_not_immediate s k hm, hf]; rfl

/-! ### The state in which the parameters have been resolved -/

/-- After the one source of format F1r. -/
def State.afterSource (s : State) (m1 : Mode) : State := s.past 1 (touchAll (s.sourceReads m1 0) s.memDom)

/-- After the two sources of format F2. -/
def State.afterSources (s : State) (m1 m2 : Mode) : State :=
  s.past 2 (touchAll (s.sourceReads m1 0 ++ s.sourceReads m2 1) s.memDom)

/-- After the two sources and the destination of format F3. -/
def State.afterParams (s : State) (m1 m2 : Mode) : State :=
  s.past 3 (touchAll (s.sourceReads m1 0 ++ s.sourceReads m2 1 ++ [s.cursor 2]) s.memDom)

/-- A store after the parameters makes the destination exist last. -/
theorem memWrite_afterParams (s : State) (m1 m2 : Mode) (d : Nat) (v : Word) :
    memWrite d v (s.afterParams m1 m2) = { s with
      mem := writeCell s.mem d v, ip := s.ip + 3,
      memDom := touchAll (s.sourceReads m1 0 ++ s.sourceReads m2 1 ++ [s.cursor 2, d]) s.memDom } := by
  simp only [memWrite, State.afterParams, State.past, touchAll_append, touchAll_cons, touchAll_nil]
  rfl

theorem storeExact_of_fits {d : Nat} {v : Int} {s : State} (h : Fits v) :
    storeExact d v s = .next (memWrite d (narrow v) s) := if_pos h

theorem storeExact_of_not_fits {d : Nat} {v : Int} {s : State} (h : ¬ Fits v) :
    storeExact d v s = .next (raise .arithmeticOverflow s) := if_neg h

theorem truthValue_lessThan (a b : Word) : truthValue (lessThan a b) = if a.toInt < b.toInt then 1 else 0 := by
  simp [truthValue, lessThan]

theorem truthValue_equalTo (a b : Word) : truthValue (equalTo a b) = if a = b then 1 else 0 := by
  simp [truthValue, equalTo, BitVec.toInt_inj]

/-! ### One equation per instruction -/

section ThreeParameters

variable {s : State} {m1 m2 m3 : Mode} {a b : Word} {d : Nat}

theorem exec_add_of_resolved (hr : s.hasRoom 3) (ha : s.source m1 0 = .ok a) (hb : s.source m2 1 = .ok b)
    (hd : s.dest m3 2 = .ok d) :
    exec (.add m1 m2 m3) s = storeExact d (a.toInt + b.toInt) (s.afterParams m1 m2) :=
  threeParams_ok _ hr ha hb hd

theorem exec_mul_of_resolved (hr : s.hasRoom 3) (ha : s.source m1 0 = .ok a) (hb : s.source m2 1 = .ok b)
    (hd : s.dest m3 2 = .ok d) :
    exec (.mul m1 m2 m3) s = storeExact d (a.toInt * b.toInt) (s.afterParams m1 m2) :=
  threeParams_ok _ hr ha hb hd

theorem exec_lt_of_resolved (hr : s.hasRoom 3) (ha : s.source m1 0 = .ok a) (hb : s.source m2 1 = .ok b)
    (hd : s.dest m3 2 = .ok d) :
    exec (.lt m1 m2 m3) s = .next (memWrite d (if a.toInt < b.toInt then 1 else 0) (s.afterParams m1 m2)) := by
  rw [← truthValue_lessThan]
  exact threeParams_ok _ hr ha hb hd

theorem exec_eq_of_resolved (hr : s.hasRoom 3) (ha : s.source m1 0 = .ok a) (hb : s.source m2 1 = .ok b)
    (hd : s.dest m3 2 = .ok d) :
    exec (.eq m1 m2 m3) s = .next (memWrite d (if a = b then 1 else 0) (s.afterParams m1 m2)) := by
  rw [← truthValue_equalTo]
  exact threeParams_ok _ hr ha hb hd

end ThreeParameters

section Sources

variable {s : State} {m1 m2 : Mode} {a b : Word}

theorem exec_jt_of_resolved (hr : s.hasRoom 2) (ha : s.source m1 0 = .ok a) (hb : s.source m2 1 = .ok b) :
    exec (.jt m1 m2) s = .next
      { s.afterSources m1 m2 with ip := if a.toInt ≠ 0 then b else (s.afterSources m1 m2).ip } := by
  refine (twoSources_ok _ hr ha hb).trans ?_
  by_cases h : a.toInt = 0 <;> simp [isNonzero, h, State.afterSources]

theorem exec_jf_of_resolved (hr : s.hasRoom 2) (ha : s.source m1 0 = .ok a) (hb : s.source m2 1 = .ok b) :
    exec (.jf m1 m2) s = .next
      { s.afterSources m1 m2 with ip := if a.toInt = 0 then b else (s.afterSources m1 m2).ip } := by
  refine (twoSources_ok _ hr ha hb).trans ?_
  by_cases h : a.toInt = 0 <;> simp [isNonzero, h, State.afterSources]

theorem exec_out_of_resolved (hr : s.hasRoom 1) (ha : s.source m1 0 = .ok a) :
    exec (.out m1) s = .next (outPush a (s.afterSource m1)) := by
  simp only [exec, execOut, readParam_ok hr ha, finish_ok]
  rfl

theorem exec_arb_of_resolved (hr : s.hasRoom 1) (ha : s.source m1 0 = .ok a) :
    exec (.arb m1) s = addToBase a (s.afterSource m1) := by
  simp only [exec, execArb, readParam_ok hr ha, finish_ok]
  rfl

end Sources

/-- `IN` with input available pops after its destination has resolved, and stores (R85). -/
theorem exec_inp_of_resolved {s t : State} {m1 : Mode} {d : Nat} {v : Word} {rest : List Word} (hin : s.input ≠ [])
    (hw : writeParam m1 s = .ok d t) (ht : t.input = v :: rest) :
    exec (.inp m1) s = .next (memWrite d v { t with input := rest }) := by
  simp [exec, execIn, inEmpty, hin, hw, inPop, ht]

/-- `IN` with input available ends where its destination raises a fault (R85, D8). -/
theorem exec_inp_of_raised {s t : State} {m1 : Mode} (hin : s.input ≠ []) (hw : writeParam m1 s = .raised t) :
    exec (.inp m1) s = .next t := by
  simp [exec, execIn, inEmpty, hin, hw]

/-! ### The obligations -/

/-- Settles O26: the value stored is the exact sum, narrowed. -/
theorem addStoresTheExactSum : Obligations.AddStoresTheExactSum := by
  intro s m1 m2 m3 a b d hr ha hb hd hf
  refine ⟨narrow (a.toInt + b.toInt), toInt_narrow hf, ?_⟩
  rw [exec_add_of_resolved hr ha hb hd, storeExact_of_fits hf, memWrite_afterParams]

/-- Settles O27: the value stored is the exact product, narrowed. -/
theorem mulStoresTheExactProduct : Obligations.MulStoresTheExactProduct := by
  intro s m1 m2 m3 a b d hr ha hb hd hf
  refine ⟨narrow (a.toInt * b.toInt), toInt_narrow hf, ?_⟩
  rw [exec_mul_of_resolved hr ha hb hd, storeExact_of_fits hf, memWrite_afterParams]

/-- Settles O28: a truth value is stored, for all operands. -/
theorem ltStoresOneExactlyWhenLess : Obligations.LtStoresOneExactlyWhenLess := by
  intro s m1 m2 m3 a b d hr ha hb hd
  rw [exec_lt_of_resolved hr ha hb hd, memWrite_afterParams]

/-- Settles O29: a truth value is stored, for all operands. -/
theorem eqStoresOneExactlyWhenEqual : Obligations.EqStoresOneExactlyWhenEqual := by
  intro s m1 m2 m3 a b d hr ha hb hd
  rw [exec_eq_of_resolved hr ha hb hd, memWrite_afterParams]

/-- Settles O30: the destination resolves, so the head of the channel is popped and stored there. -/
theorem inStoresTheOldestInput : Obligations.InStoresTheOldestInput := by
  intro s m1 v rest d hr hin hd
  exact exec_inp_of_resolved (by simp [hin]) (writeParam_ok hr hd) hin

/-- Settles O31: the operand is pushed after its resolution. -/
theorem outAppendsTheOperand : Obligations.OutAppendsTheOperand :=
  fun _ _ _ hr ha => exec_out_of_resolved hr ha

/-- Settles O32: only `IP` differs between the jump taken and not taken. -/
theorem jtJumpsExactlyWhenNonzero : Obligations.JtJumpsExactlyWhenNonzero :=
  fun _ _ _ _ _ hr ha hb => exec_jt_of_resolved hr ha hb

/-- Settles O33: only `IP` differs between the jump taken and not taken. -/
theorem jfJumpsExactlyWhenZero : Obligations.JfJumpsExactlyWhenZero :=
  fun _ _ _ _ _ hr ha hb => exec_jf_of_resolved hr ha hb

/-- Settles O34: the new base is the exact sum, narrowed. -/
theorem arbAddsTheOperandToTheRelativeBase : Obligations.ArbAddsTheOperandToTheRelativeBase := by
  intro s m1 a hr ha hf
  refine ⟨narrow (s.rb.toInt + a.toInt), toInt_narrow hf, ?_⟩
  rw [exec_arb_of_resolved hr ha]
  exact if_pos hf

end Sys2Proof.Machine
end

section
/-! Where an instruction faults (60_exceptions.md sections 1 and 2): the parameter that raises ends it, whichever
instruction it is; and the obligations. -/

namespace Sys2Proof.Machine

/-! ### An instruction as its parameters and what is done with them -/

/-- The instructions of format F3 resolve two sources and a destination first (R53, R83). -/
theorem exec_eq_threeParams {i : Instr} {m1 m2 m3 : Mode}
    (hi : i ∈ [Instr.add m1 m2 m3, .mul m1 m2 m3, .lt m1 m2 m3, .eq m1 m2 m3]) :
    ∃ k, ∀ s, exec i s = threeParams m1 m2 m3 s k := by
  simp only [List.mem_cons, List.not_mem_nil, or_false] at hi
  rcases hi with rfl | rfl | rfl | rfl <;> exact ⟨_, fun _ => rfl⟩

/-- The instructions of formats F2 and F3 resolve two sources first (R53, R61). -/
theorem exec_eq_twoSources {i : Instr} {m1 m2 m3 : Mode}
    (hi : i ∈ [Instr.add m1 m2 m3, .mul m1 m2 m3, .lt m1 m2 m3, .eq m1 m2 m3, .jt m1 m2, .jf m1 m2]) :
    ∃ k, ∀ s, exec i s = twoSources m1 m2 s k := by
  simp only [List.mem_cons, List.not_mem_nil, or_false] at hi
  rcases hi with rfl | rfl | rfl | rfl | rfl | rfl <;> exact ⟨_, fun _ => rfl⟩

/-- Every instruction whose first parameter is a source resolves it first (R53, R61). -/
theorem exec_eq_readParam {i : Instr} {m1 m2 m3 : Mode}
    (hi : i ∈ [Instr.add m1 m2 m3, .mul m1 m2 m3, .lt m1 m2 m3, .eq m1 m2 m3, .jt m1 m2, .jf m1 m2, .out m1,
      .arb m1]) :
    ∃ k, ∀ s, exec i s = (readParam m1 s).finish k := by
  simp only [List.mem_cons, List.not_mem_nil, or_false] at hi
  rcases hi with rfl | rfl | rfl | rfl | rfl | rfl | rfl | rfl <;> exact ⟨_, fun _ => rfl⟩

/-! ### The parameter that raises -/

section Raises

variable {i : Instr} {s t : State} {m1 m2 m3 : Mode} {a b : Word}

theorem exec_of_first_raised
    (hi : i ∈ [Instr.add m1 m2 m3, .mul m1 m2 m3, .lt m1 m2 m3, .eq m1 m2 m3, .jt m1 m2, .jf m1 m2, .out m1,
      .arb m1])
    (h : readParam m1 s = .raised t) : exec i s = .next t := by
  obtain ⟨k, hk⟩ := exec_eq_readParam hi
  rw [hk, h, finish_raised]

theorem exec_of_second_raised
    (hi : i ∈ [Instr.add m1 m2 m3, .mul m1 m2 m3, .lt m1 m2 m3, .eq m1 m2 m3, .jt m1 m2, .jf m1 m2])
    (hr : s.hasRoom 1) (ha : s.source m1 0 = .ok a) (h : readParam m2 (s.afterSource m1) = .raised t) :
    exec i s = .next t := by
  obtain ⟨k, hk⟩ := exec_eq_twoSources hi
  have h1 : readParam m1 s = .ok a (s.afterSource m1) := readParam_ok hr ha
  rw [hk, twoSources, h1, finish_ok, h, finish_raised]

theorem exec_of_dest_raised (hi : i ∈ [Instr.add m1 m2 m3, .mul m1 m2 m3, .lt m1 m2 m3, .eq m1 m2 m3])
    (hr : s.hasRoom 2) (ha : s.source m1 0 = .ok a) (hb : s.source m2 1 = .ok b)
    (h : writeParam m3 (s.afterSources m1 m2) = .raised t) : exec i s = .next t := by
  obtain ⟨k, hk⟩ := exec_eq_threeParams hi
  rw [hk, threeParams, twoSources_ok _ hr ha hb]
  exact congrArg (fun r => Res.finish r _) h

end Raises

/-- A source whose word, after `n` parameters, is the last cell (R14). -/
theorem readParam_past_max {s : State} {n : Nat} {d : List Nat} {m : Mode} {v : Word} (hn : s.CanPass n)
    (hmax : s.ip.toInt + n = intMax) (hv : s.source m n = .ok v) :
    readParam m (s.past n d) = .raised (raise .arithmeticOverflow (s.past n (touchAll (s.sourceReads m n) d))) := by
  rw [readParam_max (by rw [past_toInt d hn, hmax]) (by rw [past_source d m hn, hv]), past_reads d m hn]
  rfl

/-- A destination whose word, after `n` parameters, is the last cell (R14). -/
theorem writeParam_past_max {s : State} {n : Nat} {d : List Nat} {m : Mode} {e : Nat} (hn : s.CanPass n)
    (hmax : s.ip.toInt + n = intMax) (he : s.dest m n = .ok e) :
    writeParam m (s.past n d) = .raised (raise .arithmeticOverflow (s.past n (insertAddr (s.cursor n) d))) := by
  rw [writeParam_max (by rw [past_toInt d hn, hmax]) (by rw [past_dest d m hn, he]), past_cursor d 0 hn]
  rfl

/-- Below `INT_MAX - n` there is room for the `n` parameters before the one at the last cell. -/
theorem hasRoom_of_add_eq_max {s : State} {n : Nat} (hn : n ≤ 2) (h : s.ip.toInt + n = intMax) : s.hasRoom n := by
  simp only [State.hasRoom, intMax] at *
  omega

/-! ### The obligations -/

/-- Settles O37: the first source raises before anything else is done. -/
theorem firstSourceFaultStopsOnItsWord : Obligations.FirstSourceFaultStopsOnItsWord :=
  fun _ _ _ _ _ _ hi h0 hk => exec_of_first_raised hi (readParam_error h0 hk)

/-- Settles O38: the second source raises before the jump or the destination. -/
theorem secondSourceFaultStopsOnItsWord : Obligations.SecondSourceFaultStopsOnItsWord := by
  intro s m1 m m3 a k i hi hr ha hk
  rw [exec_of_second_raised hi hr ha (readParam_past_error (.inr hr) hr.1 hk), touchAll_append]
  rfl

/-- Settles O39: the destination raises before the result is judged. -/
theorem destinationFaultStoresNothing : Obligations.DestinationFaultStoresNothing := by
  intro s m1 m2 m a b k i hi hr ha hb hk
  rw [exec_of_dest_raised hi hr ha hb (writeParam_past_error (.inr hr) hr.1 hk), touchAll_append _ [s.cursor 2]]
  rfl

/-- Settles O40: the destination raises before the pop. -/
theorem inDestinationFaultKeepsTheInput : Obligations.InDestinationFaultKeepsTheInput :=
  fun _ _ _ h0 hin hk => exec_inp_of_raised hin (writeParam_error h0 hk)

/-- Settles O41: the result is judged in the state after the parameters, and raises there. -/
theorem arithmeticOverflowStoresNothing : Obligations.ArithmeticOverflowStoresNothing := by
  intro s m1 m2 m3 a b d hr ha hb hd
  refine ⟨raise .arithmeticOverflow (s.afterParams m1 m2), rfl, fun hf => ?_, fun hf => ?_⟩
  · rw [exec_add_of_resolved hr ha hb hd, storeExact_of_not_fits hf]
  · rw [exec_mul_of_resolved hr ha hb hd, storeExact_of_not_fits hf]

/-- Settles O42: the sum is judged in the state after the source, and raises there. -/
theorem baseOverflowLeavesTheRelativeBase : Obligations.BaseOverflowLeavesTheRelativeBase := by
  intro s m1 a hr ha hf
  rw [exec_arb_of_resolved hr ha]
  exact if_neg hf

/-- Settles O43: the parameter whose word is the last cell raises, at each of its three places and in `IN`. -/
theorem steppingPastTheLastCellOverflows : Obligations.SteppingPastTheLastCellOverflows := by
  intro s m1 m2 m3
  refine ⟨fun a i hi hmax ha => ?_, fun a b i hi hmax ha hb => ?_, fun a b d i hi hmax ha hb hd => ?_,
    fun d hmax hin hd => ?_⟩
  · exact exec_of_first_raised hi (readParam_max hmax ha)
  · have hlast : s.ip.toInt + (1 : Nat) = intMax := by omega
    have hr := hasRoom_of_add_eq_max (by omega) hlast
    rw [exec_of_second_raised hi hr ha (readParam_past_max (.inr hr) hlast hb), touchAll_append]
    rfl
  · have hlast : s.ip.toInt + (2 : Nat) = intMax := by omega
    have hr := hasRoom_of_add_eq_max (by omega) hlast
    rw [exec_of_dest_raised hi hr ha hb (writeParam_past_max (.inr hr) hlast hd), touchAll_append _ [s.cursor 2]]
    rfl
  · exact exec_inp_of_raised hin (writeParam_max hmax hd)

end Sys2Proof.Machine
end

section
/-! What each instruction leaves unchanged, whether it completes or faults (40_arithmetic.md to 44_relative_base.md):
read off the list of everything it can do; and the obligations. -/

namespace Sys2Proof.Machine

/-- Stepping past parameters leaves memory as it is. -/
@[simp] theorem past_mem (s : State) (n : Nat) (d : List Nat) : (s.past n d).mem = s.mem := rfl

/-- Accessing addresses removes none (R21). -/
theorem mem_touchAll_of_mem {x : Nat} {dom : List Nat} (as : List Nat) (h : x ∈ dom) : x ∈ touchAll as dom :=
  (mem_touchAll as x dom).mpr (.inr h)

/-- Nor does a write (R34). -/
theorem mem_insertAddr_of_mem {a x : Nat} {dom : List Nat} (h : x ∈ dom) : x ∈ insertAddr a dom :=
  (mem_insertAddr a x dom).mpr (.inr h)

/-- Settles O44: a store at the destination, or a fault that stored nothing. -/
theorem threeParameterInstructionsFrame : Obligations.ThreeParameterInstructionsFrame := by
  intro s t m1 m2 m3 i hi h
  rcases exec_f3_cases s hi with ⟨d, v, as, -, -, -, hd, e⟩ | ⟨f, n, as, -, -, -, e⟩ <;> rw [e] at h <;> cases h
  · refine ⟨fun d' hd' x hx => ?_, fun k hk => ?_, rfl, rfl, rfl, rfl, fun x hx => ?_, .inl ⟨rfl, rfl⟩⟩
    · obtain rfl : d = d' := by simpa [hd] using hd'
      rw [readCell_memWrite, if_neg hx, past_mem]
    · simp [hd] at hk
    · exact mem_insertAddr_of_mem (mem_touchAll_of_mem as hx)
  · exact ⟨fun _ _ _ _ => rfl, fun _ _ _ => rfl, rfl, rfl, rfl, rfl, fun _ => mem_touchAll_of_mem as,
      .inr ⟨rfl, by simp, fun _ => rfl⟩⟩

/-- Settles O45: a suspension, a store at the destination of the entry popped, or a fault that popped nothing. -/
theorem inFrame : Obligations.InFrame := by
  intro s t m1 h
  rcases exec_in_cases m1 s with ⟨hin, e⟩ | ⟨v, rest, d, as, hin, -, -, -, hd, e⟩ | ⟨v, rest, f, as, hin, -, e⟩ <;>
    rw [e] at h <;> cases h
  · exact ⟨fun _ _ _ _ => rfl, fun _ _ _ => rfl, rfl, rfl, rfl, fun _ => id, fun _ => rfl, fun hne => absurd hin hne⟩
  · refine ⟨fun d' hd' x hx => ?_, fun k hk => ?_, rfl, rfl, rfl, fun x hx => ?_, fun he => ?_,
      fun _ => .inl ⟨rfl, rfl, ?_⟩⟩
    · obtain rfl : d = d' := by simpa [hd] using hd'
      rw [readCell_memWrite, if_neg hx, past_mem]
    · simp [hd] at hk
    · exact mem_insertAddr_of_mem (mem_touchAll_of_mem as hx)
    · simp [hin] at he
    · simp [hin]
  · exact ⟨fun _ _ _ _ => rfl, fun _ _ _ => rfl, rfl, rfl, rfl, fun _ => mem_touchAll_of_mem as,
      fun he => by simp [hin] at he, fun _ => .inr ⟨rfl, by simp, rfl, fun _ => rfl⟩⟩

/-- What `OUT`, `JT`, `JF` and `ARB` can do: an effect on `IP`, `RB` and `OUT`, of which only `ARB` has one on `RB` and
only `OUT` one on `OUT`, or a fault. -/
theorem exec_storeless_cases {i : Instr} {s t : State} {m1 m2 : Mode}
    (hi : i ∈ [Instr.out m1, .jt m1 m2, .jf m1 m2, .arb m1]) (h : exec i s = .next t) :
    (∃ ip rb out as, t = { s with ip := ip, rb := rb, output := out, memDom := touchAll as s.memDom } ∧
      (i ≠ .arb m1 → rb = s.rb) ∧ (i ≠ .out m1 → out = s.output)) ∨
    ∃ f n as, t = raise f (s.past n (touchAll as s.memDom)) := by
  simp only [List.mem_cons, List.not_mem_nil, or_false, ← or_assoc (a := i = Instr.jt m1 m2)] at hi
  rcases hi with rfl | hj | rfl
  · rcases exec_out_cases m1 s with ⟨v, as, -, -, e⟩ | ⟨f, as, -, e⟩ <;> rw [e] at h <;> cases h
    · exact .inl ⟨_, _, _, as, rfl, fun _ => rfl, fun hne => absurd rfl hne⟩
    · exact .inr ⟨f, 0, as, rfl⟩
  · rcases exec_jump_cases s (by simpa using hj) with ⟨ip, as, -, e⟩ | ⟨f, n, as, -, -, -, e⟩ <;> rw [e] at h <;>
      cases h
    · exact .inl ⟨ip, _, _, as, rfl, fun _ => rfl, fun _ => rfl⟩
    · exact .inr ⟨f, n, as, rfl⟩
  · rcases exec_arb_cases m1 s with ⟨v, as, -, -, e⟩ | ⟨f, n, as, -, -, -, e⟩ <;> rw [e] at h <;> cases h
    · exact .inl ⟨_, _, _, as, rfl, fun hne => absurd rfl hne, fun _ => rfl⟩
    · exact .inr ⟨f, n, as, rfl⟩

/-- Settles O46: the two outcomes of `exec_storeless_cases`. -/
theorem instructionsThatStoreNothingFrame : Obligations.InstructionsThatStoreNothingFrame := by
  intro s t m1 m2 i hi h
  rcases exec_storeless_cases hi h with ⟨ip, rb, out, as, rfl, hrb, hout⟩ | ⟨f, n, as, rfl⟩
  · exact ⟨fun _ => rfl, rfl, rfl, fun _ => mem_touchAll_of_mem as, hrb, hout, .inl ⟨rfl, rfl⟩⟩
  · exact ⟨fun _ => rfl, rfl, rfl, fun _ => mem_touchAll_of_mem as, fun _ => rfl, fun _ => rfl,
      .inr ⟨rfl, by simp, rfl, rfl⟩⟩

end Sys2Proof.Machine
end

section
/-! The fetch and what follows it (30_encoding.md sections 2 and 6, 45_halt.md): which instruction a step runs, in which
state, and where the step faults before one runs; and the obligations. -/

namespace Sys2Proof.Machine

/-- A step whose `IP` is negative faults before anything is read (R55, D3). -/
theorem step_of_neg_ip {s : State} (hl : s.Live) (h : s.ip.toInt < 0) :
    step s = .next (raise .negativeAddress s.running) := by
  rw [step_of_live hl, runningStep, fetchWord_of_neg (s := s.running) h, finish_raised]

/-- A step at the last address reads the word and cannot advance (R14, R55). -/
theorem step_of_max_ip {s : State} (hl : s.Live) (h : s.ip.toInt = intMax) :
    step s = .next (raise .arithmeticOverflow
      { s.running with iw := s.nextWord, memDom := insertAddr s.ip.toInt.toNat s.memDom }) := by
  rw [step_of_live hl, runningStep, fetchWord_of_max (s := s.running) h, finish_raised]
  rfl

/-- A word that decodes to nothing faults after the fetch (R52, R104). -/
theorem step_of_undecoded {s : State} (hl : s.Live) (hr : s.hasRoom 1) (hd : ¬ ∃ i, decode s.nextWord = .ok i) :
    step s = .next (raise .unknownOpcode s.running.fetched) := by
  cases he : decode s.nextWord with
  | ok i => exact absurd ⟨i, he⟩ hd
  | error e => rw [step_of_live hl, runningStep_of_undecoded (s := s.running) hr he]

/-- Every word `99 + 100*h` is `HLT` (R54, R103, D16). -/
theorem decode_of_hlt_word {w : Word} {h : Nat} (hw : w.toInt = 99 + 100 * h) : decode w = .ok .hlt := by
  refine (decode_ok_iff w .hlt).mpr ⟨by omega, (decodeNat_ok_iff _ .hlt).mpr ⟨?_, rfl⟩⟩
  show w.toInt.toNat % 100 = 99
  omega

/-! ### The obligations -/

/-- Settles O22: the state `step_of_decoded` names, field by field. -/
theorem stepRunsTheDecodedInstruction : Obligations.StepRunsTheDecodedInstruction :=
  fun _ _ hl hr hd => step_of_decoded hl hr hd

/-- Settles O23: the two faults of the fetch. -/
theorem fetchFaultsOnNegativeAndOnLastAddress : Obligations.FetchFaultsOnNegativeAndOnLastAddress :=
  fun _ hl => ⟨step_of_neg_ip hl, step_of_max_ip hl⟩

/-- Settles O24: such a word decodes to nothing, by `exists_decode_iff`. -/
theorem unknownOpcodeFaultsAfterTheFetch : Obligations.UnknownOpcodeFaultsAfterTheFetch := by
  intro s hl hr hw
  refine step_of_undecoded hl hr fun hd => ?_
  obtain ⟨hnonneg, hop⟩ := (exists_decode_iff _).mp hd
  rcases hw with hneg | hnot
  · omega
  · apply hnot
    simp only [opcodes, List.mem_cons, List.not_mem_nil, or_false] at hop ⊢
    omega

/-- Settles O25: the word at `IP` is the encoding just stored, and its address exists already. -/
theorem storedInstructionIsTheOneFetched : Obligations.StoredInstructionIsTheOneFetched := by
  intro s i hl hr
  have hword : (memWrite s.ip.toInt.toNat (encode i) s).nextWord = encode i := by
    rw [State.nextWord, memWrite_ip, readCell_memWrite, if_pos rfl]
  rw [step_of_decoded (s := memWrite s.ip.toInt.toNat (encode i) s) hl hr (by rw [hword, decode_encode])]
  congr 1
  have hlatch : (memWrite s.ip.toInt.toNat (encode i) s).running.nextWord = encode i := hword
  simp only [State.fetched, hlatch, memWrite_ip, memWrite_memDom, insertAddr_idem]
  rfl

/-- Settles O35: the step halts, the run ends with it, and the terminated machine is rejected on entry. -/
theorem hltTerminatesTheMachine : Obligations.HltTerminatesTheMachine := by
  refine ⟨fun _ => rfl, fun s h hl hr hw => ?_⟩
  have hstep : step s = .next (halt s.running.fetched) := step_of_decoded hl hr (decode_of_hlt_word hw)
  have hrejected := fun n => rejected_of_enterRun n (enterRun_of_terminated (halt_status s.running.fetched))
  exact ⟨halt s.running.fetched, rfl, hstep, fun n => run_of_step_stops n hstep (by simp) rfl, (hrejected 0).1,
    fun n => (hrejected n).2⟩

end Sys2Proof.Machine
end

section
/-! The whole machine: everything one step can do, in terms of the state it starts from, and what every step keeps or
changes (10_state.md, 60_exceptions.md); and the obligations. -/

namespace Sys2Proof.Machine

/-! ### Everything a step can do -/

/-- What an instruction that begins to execute in `s` leaves where it does not fault. -/
inductive Completes (s : State) : Instr → State → Prop
  /-- `ADD`, `MUL`, `LT`, `EQ`: a value stored -/
  | store {i : Instr} {m1 m2 m3 : Mode} (d : Nat) (v : Word) (as : List Nat)
      (hi : i ∈ [Instr.add m1 m2 m3, .mul m1 m2 m3, .lt m1 m2 m3, .eq m1 m2 m3]) (ha : InAddr as)
      (hd : d ≤ Config.addrMax) : Completes s i (memWrite d v (s.past 3 (touchAll as s.memDom)))
  /-- `JT`, `JF`, whether the jump is taken or not -/
  | jump {i : Instr} {m1 m2 : Mode} (target : Word) (as : List Nat) (hi : i ∈ [Instr.jt m1 m2, .jf m1 m2])
      (ha : InAddr as) : Completes s i { s with ip := target, memDom := touchAll as s.memDom }
  | out (m : Mode) (v : Word) (as : List Nat) (ha : InAddr as) :
      Completes s (.out m) (outPush v (s.past 1 (touchAll as s.memDom)))
  | arb (m : Mode) (v : Word) (as : List Nat) (ha : InAddr as) :
      Completes s (.arb m) { s.past 1 (touchAll as s.memDom) with rb := v }
  | inp (m : Mode) {v : Word} {rest : List Word} (d : Nat) (as : List Nat) (hin : s.input = v :: rest)
      (ha : InAddr as) (hd : d ≤ Config.addrMax) :
      Completes s (.inp m) (memWrite d v { s.past 1 (touchAll as s.memDom) with input := rest })
  /-- `IN` with the channel empty -/
  | suspend (m : Mode) (hin : s.input = []) : Completes s (.inp m) (suspend s)
  | hlt : Completes s .hlt (halt s)

/-- An instruction faults having moved only `IP` and `MemDom`, or completes. -/
theorem faults_or_completes {i : Instr} {s t : State} (h : exec i s = .next t) :
    (∃ f n as, n ≤ 3 ∧ s.CanPass n ∧ InAddr as ∧ t = raise f (s.past n (touchAll as s.memDom))) ∨
    Completes s i t := by
  rcases exec_cases h with hfault | ⟨_, _, _, d, v, as, hi, ha, hd, rfl⟩ | ⟨_, _, target, as, hi, ha, rfl⟩ |
    ⟨m, v, as, rfl, ha, rfl⟩ | ⟨m, v, as, rfl, ha, rfl⟩ | ⟨m, v, rest, d, as, rfl, hin, ha, hd, rfl⟩ |
    ⟨m, rfl, hin, rfl⟩ | ⟨rfl, rfl⟩
  · exact .inl hfault
  · exact .inr (.store d v as hi ha hd)
  · exact .inr (.jump target as hi ha)
  · exact .inr (.out m v as ha)
  · exact .inr (.arb m v as ha)
  · exact .inr (.inp m d as hin ha hd)
  · exact .inr (.suspend m hin)
  · exact .inr .hlt

/-- The state of a step of `s` that faulted: `n` words stepped past, `as` accessed, `w` latched. -/
def State.faulted (s : State) (f : FaultKind) (n : Nat) (as : List Nat) (w : Word) : State :=
  raise f { s.past n (touchAll as s.memDom) with iw := w }

/-- The address of a word that is fetched is in `Addr`. -/
theorem ip_inAddr (s : State) : InAddr [s.ip.toInt.toNat] :=
  inAddr_cons (by have := word_le_max s.ip; simp only [intMax, Config.addrMax] at *; omega) inAddr_nil

/-- A fault of the instruction is a fault of the step, one word and one access further. -/
theorem raise_past_fetched (s : State) (f : FaultKind) (n : Nat) (as : List Nat) :
    raise f (s.running.fetched.past n (touchAll as s.running.fetched.memDom)) =
      s.faulted f (n + 1) (s.ip.toInt.toNat :: as) s.nextWord := by
  have hip : s.ip + 1 + BitVec.ofNat 64 n = s.ip + BitVec.ofNat 64 (n + 1) := by
    rw [Nat.add_comm n, BitVec.ofNat_add, BitVec.add_assoc]
    rfl
  simp only [State.faulted, State.past, State.fetched, raise, touchAll_cons, hip]
  rfl

/-- Everything a step that answers a next state can do: fault on the way, or complete the instruction at `IP`. -/
theorem step_cases {s t : State} (h : step s = .next t) :
    (∃ f n as w, n ≤ 4 ∧ s.CanPass n ∧ InAddr as ∧ t = s.faulted f n as w) ∨
    ∃ i, s.hasRoom 1 ∧ decode s.nextWord = .ok i ∧ Completes s.running.fetched i t := by
  obtain ⟨-, h⟩ := live_of_step h
  rcases runningStep_cases s.running with ⟨-, e⟩ | ⟨-, e⟩ | ⟨hr, -, e⟩ | ⟨hr, i, hd, e⟩ <;> rw [e] at h
  · cases h
    exact .inl ⟨.negativeAddress, 0, [], s.iw, by omega, .inl rfl, inAddr_nil, by simp [State.faulted, State.past, raise]⟩
  · cases h
    exact .inl ⟨.arithmeticOverflow, 0, _, s.nextWord, by omega, .inl rfl, ip_inAddr s,
      by simp [State.faulted, State.past, raise, State.nextWord]⟩
  · cases h
    exact .inl ⟨_, 1, _, s.nextWord, by omega, .inr hr, ip_inAddr s, rfl⟩
  · rcases faults_or_completes h with ⟨f, n, as, hn, hp, ha, rfl⟩ | hc
    · refine .inl ⟨f, n + 1, _, _, by omega, .inr ?_, inAddr_append (ip_inAddr s) ha, raise_past_fetched s f n as⟩
      rcases hp with rfl | hp
      · exact hr
      · rw [Nat.add_comm]
        exact room_of_past (s := s) (n := 1) (d := s.memDom) (.inr hr) hp
    · exact .inr ⟨i, hr, hd, hc⟩

/-! ### The parts of a step keep the invariant -/

/-- Entering a run keeps the invariant (R124). -/
theorem State.Inv.running {s : State} (h : s.Inv) (hl : s.Live) : s.running.Inv := by
  have hne : s.status ≠ .error := by rcases hl with e | e <;> simp [e]
  exact h.of_accesses inAddr_nil rfl rfl (by simp [h.fault_latch.mpr hne])

/-- Resolving parameters keeps the invariant (R59, R60). -/
theorem State.Inv.past {s : State} {as : List Nat} (n : Nat) (h : s.Inv) (ha : InAddr as) :
    (s.past n (touchAll as s.memDom)).Inv :=
  h.of_accesses ha rfl rfl h.fault_latch

/-- A fetch keeps the invariant (R55). -/
theorem State.Inv.fetched {s : State} (h : s.Inv) : s.fetched.Inv :=
  h.of_accesses (ip_inAddr s) rfl rfl h.fault_latch

/-! ### What completing an instruction keeps and changes -/

namespace Completes

variable {s t : State} {i : Instr}

theorem mem_memDom (h : Completes s i t) {x : Nat} (hx : x ∈ s.memDom) : x ∈ t.memDom := by
  cases h with
  | store d v as | inp m d as => all_goals exact mem_insertAddr_of_mem (mem_touchAll_of_mem as hx)
  | jump target as | out m v as | arb m v as => all_goals exact mem_touchAll_of_mem as hx
  | suspend | hlt => all_goals exact hx

theorem fault_eq (h : Completes s i t) : t.fault = s.fault := by cases h <;> rfl

/-- `RB` is written by `ARB` alone (R16). -/
theorem rb_eq_or_arb (h : Completes s i t) : t.rb = s.rb ∨ ∃ m, i = .arb m := by
  cases h with
  | arb m => exact .inr ⟨m, rfl⟩
  | _ => exact .inl rfl

/-- `IN` is consumed by `IN` alone (R22). -/
theorem input_eq_or_inp (h : Completes s i t) :
    t.input = s.input ∨ ∃ m v, i = .inp m ∧ s.input = v :: t.input := by
  cases h with
  | inp m d as hin => exact .inr ⟨m, _, rfl, hin⟩
  | _ => exact .inl rfl

/-- `OUT` is appended to by `OUT` alone (R23). -/
theorem output_eq_or_out (h : Completes s i t) :
    t.output = s.output ∨ ∃ m v, i = .out m ∧ t.output = s.output ++ [v] := by
  cases h with
  | out m v => exact .inr ⟨m, v, rfl, rfl⟩
  | _ => exact .inl rfl

/-- `STATE` changes only in a suspension and in `HLT` (R87, R123). -/
theorem status_cases (h : Completes s i t) :
    t.status = s.status ∨ (t.status = .awaitingInput ∧ s.input = [] ∧ ∃ m, i = .inp m) ∨
      (t.status = .terminated ∧ i = .hlt) := by
  cases h with
  | suspend m hin => exact .inr (.inl ⟨rfl, hin, m, rfl⟩)
  | hlt => exact .inr (.inr ⟨rfl, rfl⟩)
  | _ => exact .inl rfl

theorem status_ne_error (h : Completes s i t) (hs : s.status = .runnable) : t.status ≠ .error := by
  rcases h.status_cases with e | ⟨e, -⟩ | ⟨e, -⟩ <;> simp [e, hs]

theorem inv (h : Completes s i t) (hinv : s.Inv) (hs : s.status = .runnable) : t.Inv := by
  have hlatch : t.fault = none ↔ t.status ≠ .error := by
    rw [h.fault_eq, hinv.fault_latch]
    simp [hs, h.status_ne_error hs]
  cases h with
  | store d v as hi ha hd => exact (hinv.past 3 ha).memWrite v hd
  | inp m d as hin ha hd => exact ((hinv.past 1 ha).of_channels _ _).memWrite _ hd
  | jump target as hi ha => exact hinv.of_accesses ha rfl rfl hlatch
  | out m v as ha | arb m v as ha => all_goals exact hinv.of_accesses ha rfl rfl hlatch
  | suspend | hlt => all_goals exact hinv.of_accesses (as := []) inAddr_nil rfl rfl hlatch

end Completes

/-! ### What a step keeps and changes -/

/-- Settles O47: a fault accesses addresses of `Addr` and latches its kind; a completed instruction starts from a fetched
state, which meets the invariant. -/
theorem everyStepKeepsTheInvariant : Obligations.EveryStepKeepsTheInvariant := by
  intro s t hinv h
  rcases step_cases h with ⟨f, n, as, w, -, -, ha, rfl⟩ | ⟨i, -, -, hc⟩
  · exact hinv.of_accesses ha rfl rfl (by simp [State.faulted])
  · exact hc.inv (hinv.running (live_of_step h).1).fetched rfl

theorem step_of_terminated {s : State} (h : s.status = .terminated) : step s = .refused .programTerminated :=
  (rejected_of_enterRun 0 (enterRun_of_terminated h)).1

theorem step_of_error {s : State} (h : s.status = .error) : step s = .refused .machineInError :=
  (rejected_of_enterRun 0 (enterRun_of_error h)).1

/-- Settles O48: a running step answers a next state, and a terminal machine is rejected on entry. -/
theorem liveMachinesStepAndTerminalOnesDoNot : Obligations.LiveMachinesStepAndTerminalOnesDoNot := by
  refine fun s => ⟨fun hl => ?_, step_of_terminated, step_of_error⟩
  rw [step_of_live hl]
  exact runningStep_answers_next s.running

/-- Settles O50: a fault and a completed instruction both only add to `MemDom`. -/
theorem existingAddressesNeverDisappear : Obligations.ExistingAddressesNeverDisappear := by
  intro s t h a ha
  rcases step_cases h with ⟨f, n, as, w, -, -, -, rfl⟩ | ⟨i, -, -, hc⟩
  · exact mem_touchAll_of_mem as ha
  · exact hc.mem_memDom (mem_insertAddr_of_mem ha)

/-- Settles O51: a fault leaves `RB`, and so does every completed instruction but `ARB`. -/
theorem onlyArbWritesTheRelativeBase : Obligations.OnlyArbWritesTheRelativeBase := by
  intro s t h hne
  rcases step_cases h with ⟨f, n, as, w, -, -, -, rfl⟩ | ⟨i, -, hd, hc⟩
  · exact absurd rfl hne
  · obtain ⟨m, rfl⟩ := hc.rb_eq_or_arb.resolve_left hne
    exact ⟨m, hd⟩

/-- Settles O52: a fault leaves the channel, and so does every completed instruction but `IN`. -/
theorem onlyInConsumesInput : Obligations.OnlyInConsumesInput := by
  intro s t h hne
  rcases step_cases h with ⟨f, n, as, w, -, -, -, rfl⟩ | ⟨i, -, hd, hc⟩
  · exact absurd rfl hne
  · obtain ⟨m, v, rfl, hin⟩ := hc.input_eq_or_inp.resolve_left hne
    exact ⟨m, v, hd, hin⟩

/-- Settles O53: a fault leaves the channel, and so does every completed instruction but `OUT`. -/
theorem onlyOutAppendsOutput : Obligations.OnlyOutAppendsOutput := by
  intro s t h hne
  rcases step_cases h with ⟨f, n, as, w, -, -, -, rfl⟩ | ⟨i, -, hd, hc⟩
  · exact absurd rfl hne
  · obtain ⟨m, v, rfl, hout⟩ := hc.output_eq_or_out.resolve_left hne
    exact ⟨m, v, hd, hout⟩

/-- A step that does not fault ends `Runnable`, or suspended by an `IN` on an empty channel, or terminated by `HLT`. -/
theorem status_of_step {s t : State} (h : step s = .next t) :
    t.status = .error ∨ (t.fault = s.fault ∧
      (t.status = .runnable ∨
        (t.status = .awaitingInput ∧ s.hasRoom 1 ∧ s.input = [] ∧ ∃ m, decode s.nextWord = .ok (.inp m)) ∨
        (t.status = .terminated ∧ s.hasRoom 1 ∧ decode s.nextWord = .ok .hlt))) := by
  rcases step_cases h with ⟨f, n, as, w, -, -, -, rfl⟩ | ⟨i, hr, hd, hc⟩
  · exact .inl rfl
  · refine .inr ⟨hc.fault_eq, hc.status_cases.imp_right (Or.imp ?_ ?_)⟩
    · rintro ⟨hs, hin, m, rfl⟩
      exact ⟨hs, hr, hin, m, hd⟩
    · rintro ⟨hs, rfl⟩
      exact ⟨hs, hr, hd⟩

/-- Settles O54: one direction of each equivalence is `status_of_step`, the other the step of `IN` or `HLT`. -/
theorem stepMakesTheTransitionsOfTheTable : Obligations.StepMakesTheTransitionsOfTheTable := by
  intro s t h
  have hl := (live_of_step h).1
  have hstatus := status_of_step h
  refine ⟨⟨fun hs => ?_, ?_⟩, ⟨fun hs => ?_, ?_⟩, fault_of_step h, fun hne => (hstatus.resolve_left hne).1⟩
  · simpa [hs] using (hstatus.resolve_left (by simp [hs])).2
  · rintro ⟨hr, hin, m, hd⟩
    cases h.symm.trans (step_inp_of_empty hl hr hd hin)
    rfl
  · simpa [hs] using (hstatus.resolve_left (by simp [hs])).2
  · rintro ⟨hr, hd⟩
    cases h.symm.trans (step_of_decoded hl hr hd)
    rfl

/-- Settles O55: a completed instruction does not end in `Error`, and a fault moved only `IP` and `MemDom`. -/
theorem faultingStepHasNoEffectOfItsOwn : Obligations.FaultingStepHasNoEffectOfItsOwn := by
  intro s t h he
  rcases step_cases h with ⟨f, n, as, w, hn, hp, -, rfl⟩ | ⟨i, -, -, hc⟩
  · have hip : (s.faulted f n as w).ip.toInt = s.ip.toInt + n := past_toInt (touchAll as s.memDom) hp
    exact ⟨rfl, rfl, rfl, rfl, fun _ => mem_touchAll_of_mem as, by omega, by omega⟩
  · exact absurd he (hc.status_ne_error rfl)

end Sys2Proof.Machine
end

section
/-! `MemDom` and the latch `IW` cannot be observed (decisions D10, D17): every part of a step, taken in two states that
agree on everything else, gives the same value or raises alike, in two states that again do; and the obligation. -/

namespace Sys2Proof.Machine

/-! ### Agreement of states and of results -/

/-- The two states differ in `MemDom` and `IW` alone. -/
theorem State.SameButShadow.exists_eq {s t : State} (h : s.SameButShadow t) :
    ∃ d w, t = { s with memDom := d, iw := w } := by
  obtain ⟨hmem, hip, hrb, hin, hout, hstatus, hfault⟩ := h
  refine ⟨t.memDom, t.iw, ?_⟩
  rw [hmem, hip, hrb, hin, hout, hstatus, hfault]

/-- `MemDom` and `IW` can be put at will. -/
theorem sameButShadow_with (s : State) (d : List Nat) (w : Word) :
    s.SameButShadow { s with memDom := d, iw := w } := ⟨rfl, rfl, rfl, rfl, rfl, rfl, rfl⟩

/-- Two results of a part of a step: the same value, or a fault on both sides, in states that agree. -/
inductive Res.Agree {α : Type} : Res α → Res α → Prop
  | ok (a : α) {s t : State} (h : s.SameButShadow t) : Agree (.ok a s) (.ok a t)
  | raised {s t : State} (h : s.SameButShadow t) : Agree (.raised s) (.raised t)

/-- Two outcomes of a step: next states that agree, or the same refusal. -/
inductive OutcomesAgree : Outcome → Outcome → Prop
  | next {s t : State} (h : s.SameButShadow t) : OutcomesAgree (.next s) (.next t)
  | refused (r : Refusal) : OutcomesAgree (.refused r) (.refused r)

theorem Res.Agree.bind {α β : Type} {r r' : Res α} {k : α → State → Res β} (h : r.Agree r')
    (hk : ∀ a s t, s.SameButShadow t → (k a s).Agree (k a t)) : (r.bind k).Agree (r'.bind k) := by
  cases h with
  | ok a h => exact hk a _ _ h
  | raised h => exact .raised h

theorem Res.Agree.finish {α : Type} {r r' : Res α} {k k' : α → State → Outcome} (h : r.Agree r')
    (hk : ∀ a s t, s.SameButShadow t → OutcomesAgree (k a s) (k' a t)) :
    OutcomesAgree (r.finish k) (r'.finish k') := by
  cases h with
  | ok a h => exact hk a _ _ h
  | raised h => exact .next h

/-! ### The parts of a step -/

section Parts

variable {s t : State} (h : s.SameButShadow t)
include h

theorem agree_raise (k : FaultKind) : (raise k s).SameButShadow (raise k t) := by
  obtain ⟨d, w, rfl⟩ := h.exists_eq
  exact sameButShadow_with _ d w

theorem agree_check {α : Type} (e : Except FaultKind α) : (Res.check e s).Agree (Res.check e t) := by
  cases e with
  | ok a => exact .ok a h
  | error k => exact .raised (agree_raise h k)

theorem agree_touch (a : Nat) : (s.touch a).SameButShadow (t.touch a) := by
  obtain ⟨d, w, rfl⟩ := h.exists_eq
  exact sameButShadow_with _ (insertAddr a d) w

theorem agree_memWrite (a : Nat) (v : Word) : (memWrite a v s).SameButShadow (memWrite a v t) := by
  obtain ⟨d, w, rfl⟩ := h.exists_eq
  exact sameButShadow_with _ (insertAddr a d) w

/-- A read gives the same value, and then whatever is done with it. -/
theorem agree_memRead (a : Nat) :
    (Res.ok (memRead a s).1 (memRead a s).2).Agree (Res.ok (memRead a t).1 (memRead a t).2) := by
  have hread : (memRead a t).1 = (memRead a s).1 := by obtain ⟨d, w, rfl⟩ := h.exists_eq; rfl
  rw [hread]
  exact .ok _ (agree_touch h a)

theorem agree_advanceIP : (advanceIP s).Agree (advanceIP t) := by
  obtain ⟨d, w, rfl⟩ := h.exists_eq
  unfold advanceIP
  split
  · exact .raised (agree_raise h _)
  · exact .ok () (sameButShadow_with _ d w)

theorem agree_readParamWord : (readParamWord s).Agree (readParamWord t) := by
  have hip : t.ip = s.ip := by obtain ⟨d, w, rfl⟩ := h.exists_eq; rfl
  rw [readParamWord, readParamWord, hip]
  exact (agree_check h _).bind fun a _ _ h => agree_memRead h a

theorem agree_effective (m : Mode) (p : Word) :
    (Res.check (effective m p s.rb) s).Agree (Res.check (effective m p t.rb) t) := by
  obtain ⟨d, w, rfl⟩ := h.exists_eq
  exact agree_check h _

theorem agree_resolveSource (m : Mode) (p : Word) : (resolveSource m p s).Agree (resolveSource m p t) := by
  cases m with
  | immediate => exact .ok p h
  | position => exact (agree_effective h .position p).bind fun e _ _ h => agree_memRead h e
  | relative => exact (agree_effective h .relative p).bind fun e _ _ h => agree_memRead h e
  | unknown k => exact (agree_effective h (.unknown k) p).bind fun e _ _ h => agree_memRead h e

theorem agree_readParam (m : Mode) : (readParam m s).Agree (readParam m t) :=
  (agree_readParamWord h).bind fun p _ _ h => (agree_resolveSource h m p).bind fun v _ _ h =>
    (agree_advanceIP h).bind fun _ _ _ h => .ok v h

theorem agree_writeParam (m : Mode) : (writeParam m s).Agree (writeParam m t) :=
  (agree_readParamWord h).bind fun p _ _ h => (agree_effective h m p).bind fun e _ _ h =>
    (agree_advanceIP h).bind fun _ _ _ h => .ok e h

theorem agree_twoSources (m1 m2 : Mode) {k : Word → Word → State → Outcome}
    (hk : ∀ a b s t, s.SameButShadow t → OutcomesAgree (k a b s) (k a b t)) :
    OutcomesAgree (twoSources m1 m2 s k) (twoSources m1 m2 t k) :=
  (agree_readParam h m1).finish fun a _ _ h => (agree_readParam h m2).finish (hk a)

theorem agree_threeParams (m1 m2 m3 : Mode) {k : Word → Word → Nat → State → Outcome}
    (hk : ∀ a b d s t, s.SameButShadow t → OutcomesAgree (k a b d s) (k a b d t)) :
    OutcomesAgree (threeParams m1 m2 m3 s k) (threeParams m1 m2 m3 t k) :=
  agree_twoSources h m1 m2 fun a b _ _ h => (agree_writeParam h m3).finish (hk a b)

theorem agree_storeExact (d : Nat) (v : Int) : OutcomesAgree (storeExact d v s) (storeExact d v t) := by
  unfold storeExact
  split
  · exact .next (agree_memWrite h d _)
  · exact .next (agree_raise h _)

theorem agree_addToBase (a : Word) : OutcomesAgree (addToBase a s) (addToBase a t) := by
  obtain ⟨d, w, rfl⟩ := h.exists_eq
  unfold addToBase
  split
  · exact .next (sameButShadow_with _ d w)
  · exact .next (agree_raise h _)

/-- A jump moves `IP` alone. -/
theorem agree_setIp (target : Word) : State.SameButShadow { s with ip := target } { t with ip := target } := by
  obtain ⟨d, w, rfl⟩ := h.exists_eq
  exact sameButShadow_with _ d w

theorem agree_suspend : (suspend s).SameButShadow (suspend t) := by
  obtain ⟨d, w, rfl⟩ := h.exists_eq
  exact sameButShadow_with _ d w

theorem agree_execIn (m : Mode) : OutcomesAgree (execIn m s) (execIn m t) := by
  have hempty : inEmpty t = inEmpty s := by obtain ⟨d, w, rfl⟩ := h.exists_eq; rfl
  rw [execIn, execIn, hempty]
  split
  · exact .next (agree_suspend h)
  · refine (agree_writeParam h m).finish fun d s1 t1 h1 => ?_
    obtain ⟨dom, w, rfl⟩ := h1.exists_eq
    cases hin : s1.input with
    | nil => simpa only [inPop, hin] using OutcomesAgree.next (agree_suspend h)
    | cons v rest =>
      simp only [inPop, hin]
      exact .next (agree_memWrite (sameButShadow_with { s1 with input := rest } dom w) d v)

/-- No instruction observes `MemDom` or `IW`. -/
theorem agree_exec (i : Instr) : OutcomesAgree (exec i s) (exec i t) := by
  cases i with
  | add m1 m2 m3 | mul m1 m2 m3 =>
    all_goals exact agree_threeParams h m1 m2 m3 fun _ _ d _ _ h => agree_storeExact h d _
  | lt m1 m2 m3 | eq m1 m2 m3 =>
    all_goals exact agree_threeParams h m1 m2 m3 fun _ _ d _ _ h => .next (agree_memWrite h d _)
  | inp m => exact agree_execIn h m
  | out m =>
    refine (agree_readParam h m).finish fun v s1 t1 h1 => .next ?_
    obtain ⟨d, w, rfl⟩ := h1.exists_eq
    exact sameButShadow_with _ d w
  | jt m1 m2 =>
    refine agree_twoSources h m1 m2 fun a b s1 t1 h1 => .next ?_
    cases isNonzero a
    · exact h1
    · exact agree_setIp h1 b
  | jf m1 m2 =>
    refine agree_twoSources h m1 m2 fun a b s1 t1 h1 => .next ?_
    cases isNonzero a
    · exact agree_setIp h1 b
    · exact h1
  | arb m => exact (agree_readParam h m).finish fun a _ _ h => agree_addToBase h a
  | hlt =>
    obtain ⟨d, w, rfl⟩ := h.exists_eq
    exact .next (sameButShadow_with _ d w)

/-! ### The step -/

/-- The fetch gives the same word: `IP` and the cell there are the same. -/
theorem agree_fetchWord : (fetchWord s).Agree (fetchWord t) := by
  obtain ⟨d, w, rfl⟩ := h.exists_eq
  rcases fetchWord_cases s with ⟨hneg, e⟩ | ⟨hmax, e⟩ | ⟨hr, e⟩
  · rw [e, fetchWord_of_neg (s := { s with memDom := d, iw := w }) hneg]
    exact .raised (agree_raise h _)
  · rw [e, fetchWord_of_max (s := { s with memDom := d, iw := w }) hmax]
    exact .raised (sameButShadow_with _ _ _)
  · rw [e, fetchWord_of_room (s := { s with memDom := d, iw := w }) hr]
    exact .ok s.nextWord (sameButShadow_with _ _ _)

theorem agree_runningStep : OutcomesAgree (runningStep s) (runningStep t) := by
  refine (agree_fetchWord h).finish fun w s1 t1 h1 => ?_
  cases decode w with
  | ok i => exact agree_exec h1 i
  | error e => exact .next (agree_raise h1 _)

theorem agree_step : OutcomesAgree (step s) (step t) := by
  have hstatus : t.status = s.status := by obtain ⟨d, w, rfl⟩ := h.exists_eq; rfl
  have live (hs : s.Live) : OutcomesAgree (step s) (step t) := by
    rw [step_of_live hs, step_of_live (s := t) (by rwa [State.Live, hstatus])]
    obtain ⟨d, w, rfl⟩ := h.exists_eq
    exact agree_runningStep (sameButShadow_with s.running d w)
  cases hs : s.status with
  | runnable => exact live (.inl hs)
  | awaitingInput => exact live (.inr hs)
  | terminated =>
    rw [step_of_terminated hs, step_of_terminated (hstatus.trans hs)]
    exact .refused _
  | error =>
    rw [step_of_error hs, step_of_error (hstatus.trans hs)]
    exact .refused _

end Parts

/-- Settles O49: the two outcomes agree, so they are next states that agree or one refusal. -/
theorem shadowStateCannotBeObserved : Obligations.ShadowStateCannotBeObserved := by
  intro s t h
  have hstep := agree_step h
  constructor
  · intro s' hs'
    rw [hs'] at hstep
    generalize step t = o at hstep
    cases hstep with
    | next h' => exact ⟨_, rfl, h'⟩
  · intro r hr
    rw [hr] at hstep
    generalize step t = o at hstep
    cases hstep with
    | refused r => rfl

end Sys2Proof.Machine
end

section
/-! Runs (60_exceptions.md section 6): the loop of `Run` as the iterated step, its fuel, and the invariant across the
host's operations; and the obligations. -/

namespace Sys2Proof.Machine

/-! ### The loop of a run -/

theorem runLoop_zero_of_runnable {s : State} (hs : s.status = .runnable) : runLoop 0 s = none := by
  rw [runLoop, if_pos hs]

theorem runLoop_succ_of_step {s u : State} (n : Nat) (hs : s.status = .runnable) (h : step s = .next u) :
    runLoop (n + 1) s = runLoop n u := by
  rw [step_of_runnable hs] at h
  simp only [runLoop, hs, if_true, h]

/-- A `Runnable` machine always takes a step (R131). -/
theorem exists_step_of_runnable {s : State} (hs : s.status = .runnable) : ∃ u, step s = .next u := by
  rw [step_of_runnable hs]
  exact runningStep_answers_next s

/-- The loop ends, within its fuel, exactly where the iterated step first leaves `Runnable` (R124). -/
theorem runLoop_eq_some_iff {n : Nat} {s t : State} (hs : s.status = .runnable) :
    runLoop n s = some t ↔ ∃ k, k ≤ n ∧ s.StopsAfter k t := by
  induction n generalizing s with
  | zero =>
    rw [runLoop_zero_of_runnable hs]
    refine ⟨fun h => (nomatch h), ?_⟩
    rintro ⟨k, hk, hpos, -⟩
    omega
  | succ n ih =>
    obtain ⟨u, hu⟩ := exists_step_of_runnable hs
    have hshift : (∃ k, k ≤ n + 1 ∧ s.StopsAfter k t) ↔ ∃ k, k ≤ n ∧ s.StopsAfter (k + 1) t := by
      constructor
      · rintro ⟨k, hk, hstop⟩
        obtain ⟨k, rfl⟩ : ∃ j, k = j + 1 := ⟨k - 1, by have := hstop.1; omega⟩
        exact ⟨k, by omega, hstop⟩
      · rintro ⟨k, hk, hstop⟩
        exact ⟨k + 1, by omega, hstop⟩
    rw [runLoop_succ_of_step n hs hu, hshift]
    simp only [stopsAfter_step hu]
    by_cases hrun : u.status = .runnable
    · simp [ih hrun, hrun]
    · simp [runLoop_of_not_runnable n hrun, hrun, eq_comm]

/-- A loop that ends does so with any more fuel. -/
theorem runLoop_add {n : Nat} (k : Nat) {s t : State} (h : runLoop n s = some t) : runLoop (n + k) s = some t := by
  induction n generalizing s with
  | zero =>
    by_cases hs : s.status = .runnable
    · simp [runLoop_zero_of_runnable hs] at h
    · rwa [runLoop_of_not_runnable _ hs] at h ⊢
  | succ n ih =>
    by_cases hs : s.status = .runnable
    · obtain ⟨u, hu⟩ := exists_step_of_runnable hs
      rw [runLoop_succ_of_step n hs hu] at h
      rw [Nat.add_right_comm, runLoop_succ_of_step _ hs hu]
      exact ih h
    · rwa [runLoop_of_not_runnable _ hs] at h ⊢

theorem State.Inv.runLoop {n : Nat} {s t : State} (hinv : s.Inv) (h : runLoop n s = some t) : t.Inv := by
  induction n generalizing s with
  | zero =>
    by_cases hs : s.status = .runnable
    · simp [runLoop_zero_of_runnable hs] at h
    · cases (runLoop_of_not_runnable 0 hs).symm.trans h
      exact hinv
  | succ n ih =>
    by_cases hs : s.status = .runnable
    · obtain ⟨u, hu⟩ := exists_step_of_runnable hs
      rw [runLoop_succ_of_step n hs hu] at h
      exact ih (everyStepKeepsTheInvariant s u hinv hu) h
    · cases (runLoop_of_not_runnable (n + 1) hs).symm.trans h
      exact hinv

/-! ### The run -/

/-- A run of a live machine answers where its loop ends, with the report of the state there (R124, R125). -/
theorem run_eq_some_iff {n : Nat} {s t : State} {rep : Report} (hl : s.Live) :
    run n s = some (rep, t) ↔ runLoop n s.running = some t ∧ reportOf t = some rep := by
  simp only [run, enterRun_of_live hl, Option.bind_eq_some_iff, Option.map_eq_some_iff, Prod.mk.injEq]
  constructor
  · rintro ⟨u, hu, r, hr, rfl, rfl⟩
    exact ⟨hu, hr⟩
  · rintro ⟨hloop, hrep⟩
    exact ⟨t, hloop, rep, hrep, rfl, rfl⟩

/-- A machine that is not live is rejected by every run, whatever the fuel (R121, R137). -/
theorem run_of_not_live {s : State} (hl : ¬ s.Live) : ∃ r, ∀ n, run n s = some (.rejected r, s) := by
  cases hs : s.status with
  | runnable => exact absurd (.inl hs) hl
  | awaitingInput => exact absurd (.inr hs) hl
  | terminated => exact ⟨_, fun n => (rejected_of_enterRun n (enterRun_of_terminated hs)).2⟩
  | error => exact ⟨_, fun n => (rejected_of_enterRun n (enterRun_of_error hs)).2⟩

/-- A state that one or more steps reach is reached by a last step. -/
theorem exists_last_step {k : Nat} {s t : State} (h : Host.Core.run Sys2Proof.core (k + 1) s = .next t) :
    ∃ u, step u = .next t := by
  induction k generalizing s with
  | zero =>
    cases hs : step s with
    | next u => exact ⟨s, hs.trans ((core_run_of_step 0 hs).symm.trans h)⟩
    | fault f => exact nomatch f
    | refused r => simp [Host.Core.run, Sys2Proof.core, hs] at h
  | succ k ih =>
    cases hs : step s with
    | next u => exact ih ((core_run_of_step (k + 1) hs).symm.trans h)
    | fault f => exact nomatch f
    | refused r => simp [Host.Core.run, Sys2Proof.core, hs] at h

/-- Every state that a step reaches and that is not `Runnable` has a report: in `Error` a kind is latched (R112, R125). -/
theorem exists_report_of_step {u t : State} (h : step u = .next t) (ht : t.status ≠ .runnable) :
    ∃ rep, reportOf t = some rep := by
  cases hs : t.status with
  | runnable => exact absurd hs ht
  | awaitingInput => exact ⟨.needInput, by simp only [reportOf, hs]⟩
  | terminated => exact ⟨.halted, by simp only [reportOf, hs]⟩
  | error =>
    obtain ⟨f, hf⟩ := Option.ne_none_iff_exists'.mp (fault_of_step h hs)
    exact ⟨.faulted f, by simp only [reportOf, hs, hf, Option.map_some]⟩

/-! ### The obligations -/

/-- Settles O58: the loop ends where the iterated step does, and the state there has a report. -/
theorem runIsTheIteratedStep : Obligations.RunIsTheIteratedStep := by
  intro n s t hl
  have hloop : runLoop n s.running = some t ↔ ∃ k, k ≤ n ∧ s.StopsAfter k t := by
    rw [runLoop_eq_some_iff rfl]
    simp only [stopsAfter_running hl]
  refine ⟨fun rep h => ?_, fun hstop => ?_⟩
  · rwa [run_eq_some_iff hl, hloop] at h
  · have hrep : ∃ rep, reportOf t = some rep := by
      obtain ⟨k, -, hpos, hrun, hne, -⟩ := hstop
      obtain ⟨k, rfl⟩ : ∃ j, k = j + 1 := ⟨k - 1, by omega⟩
      obtain ⟨u, hu⟩ := exists_last_step hrun
      exact exists_report_of_step hu hne
    obtain ⟨rep, hrep⟩ := hrep
    exact ⟨rep, hrep, (run_eq_some_iff hl).mpr ⟨hloop.mpr hstop, hrep⟩⟩

/-- Settles O59: the loop ends in the same state, and a rejection does not look at the fuel. -/
theorem moreFuelGivesTheSameRun : Obligations.MoreFuelGivesTheSameRun := by
  rintro n k s ⟨rep, t⟩ h
  by_cases hl : s.Live
  · obtain ⟨hloop, hrep⟩ := (run_eq_some_iff hl).mp h
    exact (run_eq_some_iff hl).mpr ⟨runLoop_add k hloop, hrep⟩
  · obtain ⟨r, hr⟩ := run_of_not_live hl
    rw [hr, ← h, hr]

/-- Settles O19: the first three change the channels alone; a run is entered, and then each step keeps the invariant. -/
theorem hostOperationsKeepTheInvariant : Obligations.HostOperationsKeepTheInvariant := by
  intro s hinv
  refine ⟨fun v => hinv.of_channels _ _, fun bytes => ?_, ?_, fun n rep t h => ?_⟩
  · rw [pushAscii_eq]
    exact hinv.of_channels _ _
  · cases hout : s.output with
    | nil => rwa [popOutput_of_nil hout]
    | cons v rest =>
      rw [popOutput_of_cons hout]
      exact hinv.of_channels _ _
  · by_cases hl : s.Live
    · exact (hinv.running hl).runLoop ((run_eq_some_iff hl).mp h).1
    · obtain ⟨r, hr⟩ := run_of_not_live hl
      cases (hr n).symm.trans h
      exact hinv

end Sys2Proof.Machine
end

section
/-! The text loader (30_encoding.md section 7): which tokens parse, whatever the loader's leniency, and what one that
does not does to its text; and the obligation. -/

namespace Sys2Proof.Machine

/-! ### Characters and values -/

/-- A decimal digit is no white space and no sign. -/
theorem digitChar_plain (d : Fin 10) :
    isSpace d.val.digitChar = false ∧ d.val.digitChar ≠ '-' ∧ d.val.digitChar ≠ '+' := by
  revert d; decide

theorem digitValue_of_not_isDigit {c : Char} (h : c.isDigit = false) : digitValue c = none := by
  refine if_neg fun hc => ?_
  simp only [Char.isDigit, Bool.and_eq_false_iff, decide_eq_false_iff_not, UInt32.le_iff_toNat_le] at h
  exact h.elim (absurd hc.1) (absurd hc.2)

theorem tokenValue_of_not_fits {v : Int} (h : ¬ Fits v) : tokenValue v = none := if_neg h

/-! ### One token -/

/-- The part of a token that a loader reads: a lenient one leaves out the white space around it (R78). -/
def strippedToken (lenient : Bool) (token : List Char) : List Char := if lenient then trimToken token else token

theorem strippedToken_of_no_space {lenient : Bool} {token : List Char} (h : ∀ c ∈ token, isSpace c = false) :
    strippedToken lenient token = token := by
  cases lenient with
  | false => rfl
  | true => exact trimToken_of_no_space h

theorem mem_strippedToken {lenient : Bool} {token : List Char} {c : Char} (h : c ∈ token) (hc : isSpace c = false) :
    c ∈ strippedToken lenient token := by
  cases lenient with
  | false => exact h
  | true => exact mem_trimToken h hc

theorem parseToken_of_minus {lenient : Bool} {token ds : List Char} (h : strippedToken lenient token = '-' :: ds) :
    parseToken lenient token = (digitsValue ds).bind fun n => tokenValue (-(n : Int)) := by
  rw [strippedToken] at h
  simp only [parseToken, h]

theorem parseToken_of_plus {lenient : Bool} {token ds : List Char} (h : strippedToken lenient token = '+' :: ds) :
    parseToken lenient token = if lenient then (digitsValue ds).bind fun n => tokenValue n else none := by
  rw [strippedToken] at h
  simp only [parseToken, h]

theorem parseToken_of_unsigned {lenient : Bool} {token : List Char} {c : Char} {cs : List Char}
    (h : strippedToken lenient token = c :: cs) (hminus : c ≠ '-') (hplus : c ≠ '+') :
    parseToken lenient token = (digitsValue (c :: cs)).bind fun n => tokenValue n := by
  rw [strippedToken] at h
  simp only [parseToken, h]
  split
  · next e => exact absurd (List.cons.inj e).1 hminus
  · next e => exact absurd (List.cons.inj e).1 hplus
  · rfl

theorem parseToken_nil (lenient : Bool) : parseToken lenient [] = none := by cases lenient <;> rfl

theorem parseToken_minus_alone (lenient : Bool) : parseToken lenient ['-'] = none :=
  parseToken_of_minus (ds := []) (strippedToken_of_no_space (by simp [isSpace]))

/-- A character that is no digit, no sign and no white space spoils its token (R78). -/
theorem parseToken_of_bad_char {lenient : Bool} {token : List Char} {c : Char} (hc : c ∈ token)
    (hdigit : c.isDigit = false) (hother : c ∉ ['-', '+', ' ', '\t', '\n', '\r']) :
    parseToken lenient token = none := by
  simp only [List.mem_cons, List.not_mem_nil, or_false, not_or] at hother
  obtain ⟨hminus, hplus, hspace⟩ := hother
  have hvalue : digitValue c = none := digitValue_of_not_isDigit hdigit
  have hmem : c ∈ strippedToken lenient token := mem_strippedToken hc (by simp [isSpace, hspace])
  cases htoken : strippedToken lenient token with
  | nil => simp [htoken] at hmem
  | cons x ds =>
    rw [htoken] at hmem
    have htail (hx : c ≠ x) : digitsValue ds = none :=
      digitsValue_none hvalue ((List.mem_cons.mp hmem).resolve_left hx)
    by_cases hm : x = '-'
    · subst hm
      rw [parseToken_of_minus htoken, htail hminus, Option.bind_none]
    · by_cases hp : x = '+'
      · subst hp
        rw [parseToken_of_plus htoken, htail hplus, Option.bind_none, ite_self]
      · rw [parseToken_of_unsigned htoken hm hp, digitsValue_none hvalue hmem, Option.bind_none]

/-! ### Digit strings -/

section Digits

variable {digits : List (Fin 10)} (lenient : Bool) (h : digits ≠ [])
include h

/-- One or more digits are the value of their numeral, where it fits (R78). -/
theorem parseToken_digits :
    parseToken lenient (digits.map fun d => d.val.digitChar) =
      tokenValue (digits.foldl (fun v d => 10 * v + d.val) 0 : Nat) := by
  have hspace : ∀ c ∈ digits.map (fun d => d.val.digitChar), isSpace c = false := by
    simp only [List.forall_mem_map]
    exact fun d _ => (digitChar_plain d).1
  have hvalue := digitsValue_digits h
  cases digits with
  | nil => exact absurd rfl h
  | cons d ds =>
    obtain ⟨-, hminus, hplus⟩ := digitChar_plain d
    rw [List.map_cons] at hspace hvalue ⊢
    rw [parseToken_of_unsigned (strippedToken_of_no_space hspace) hminus hplus, hvalue, Option.bind_some]

/-- After a `-` they are the negated value (R78). -/
theorem parseToken_minus_digits :
    parseToken lenient ('-' :: digits.map fun d => d.val.digitChar) =
      tokenValue (-(digits.foldl (fun v d => 10 * v + d.val) 0 : Nat)) := by
  have hspace : ∀ c ∈ '-' :: digits.map (fun d => d.val.digitChar), isSpace c = false := by
    simp only [List.forall_mem_cons, List.forall_mem_map]
    exact ⟨rfl, fun d _ => (digitChar_plain d).1⟩
  rw [parseToken_of_minus (strippedToken_of_no_space hspace), digitsValue_digits h, Option.bind_some]

end Digits

/-! ### Texts -/

/-- A malformed token spoils the list of tokens it is in (R77). -/
theorem parseTokens_of_malformed {lenient : Bool} {token : List Char} {tokens : List (List Char)}
    (hmem : token ∈ tokens) (h : parseToken lenient token = none) : parseTokens lenient tokens = none := by
  induction tokens with
  | nil => exact absurd hmem List.not_mem_nil
  | cons t ts ih =>
    rcases List.mem_cons.mp hmem with rfl | hmem
    · rw [parseTokens, h, Option.bind_none]
    · simp [parseTokens, ih hmem]

theorem loadText_of_malformed {text token : List Char} (hmem : token ∈ splitCommas text)
    (h : parseToken Config.loaderLenient token = none) : loadText text = none := by
  rw [loadText, parseText, parseTokens_of_malformed hmem h, Option.map_none]

/-- Settles O60: token by token; the empty text is the one empty token. -/
theorem malformedTokenFailsTheLoad : Obligations.MalformedTokenFailsTheLoad := by
  refine ⟨fun text token => loadText_of_malformed,
    fun lenient => ⟨parseToken_nil lenient, parseToken_minus_alone lenient⟩,
    loadText_of_malformed (token := []) (by decide) (parseToken_nil _), ?_,
    fun lenient token c => parseToken_of_bad_char⟩
  rintro lenient digits token n hne rfl rfl
  rw [parseToken_digits lenient hne, parseToken_minus_digits lenient hne]
  exact ⟨tokenValue_of_not_fits, tokenValue_of_not_fits, tokenValue_of_fits, tokenValue_of_fits⟩

end Sys2Proof.Machine
end
